-- ==== Sys2Proof/Word.lean ====
section
/-!
DEFINITION. Bytes, blocks, keys and the two build-time instances of the core (spec/00_scope.md R2, R8, R9, R11).
A block is held as the value of the N-bit bus it travels on (spec/20_memory.md R43), which is `int(b)` of R12.
-/

namespace Sys2Proof

/-- A byte, a value 0..255 (R11). -/
abbrev Byte := BitVec 8

/-- The instance, selected when the hardware is built and never at run time (R2): `mgm` has B = 16 bytes and
wraps a 128-bit cipher, `mgm64` has B = 8 bytes and wraps a 64-bit cipher. `B` takes no other value (R9). -/
inductive Inst where
  | mgm
  | mgm64
  deriving DecidableEq, Repr

/-- `HB`, the half-block size in bytes (R8). -/
def Inst.HB : Inst → Nat
  | .mgm => 8
  | .mgm64 => 4

/-- `B`, the block size in bytes: 16 or 8 (R8). It is also IVBYTES and TAGMAX. -/
def Inst.B (I : Inst) : Nat := 2 * I.HB

/-- `N`, the block size in bits, two half-blocks of `8·HB` bits each (R8). -/
abbrev Inst.N (I : Inst) : Nat := 8 * I.HB + 8 * I.HB

/-- A block of an instance as the unsigned integer `int(b)` of its bytes, `b[0]` most significant (R11, R12, R43). -/
abbrev Block (I : Inst) := BitVec I.N

/-- A cipher key: KEYBYTES = 32 bytes in both instances, `k[0]` most significant (R8, R43, R176). -/
abbrev Key := BitVec 256

end Sys2Proof
end

