-- ==== Sys2Proof/Syntax.lean ====
section
/-!
DEFINITION. The abstract syntax of the command word: one constructor per row of spec/opcode_table.json
(spec/30_encoding.md R61, R62, R80). The command's `data` and `key` fields are not part of the word: they stand in the
command buffer of the state (`CoreState.cmd`), where a meaning reads them.
-/

namespace Sys2Proof

/-- The eight operations of the command word. `len` is the unsigned 5-bit count of `word[7:3]`, used as it stands
(R61, R63): its legality belongs to execution, not to decoding (R69). -/
inductive Instr where
  /-- `op = 0`: does nothing and reports the flags (R135). -/
  | nop (len : Nat)
  /-- `op = 1`: loads the key (R175). -/
  | setKey (len : Nat)
  /-- `op = 2`: starts a session from a nonce (R136). -/
  | setIv (len : Nat)
  /-- `op = 3`: absorbs one block of associated data (R137). -/
  | update (len : Nat)
  /-- `op = 4`: encrypts one block and absorbs the ciphertext (R138). -/
  | encrypt (len : Nat)
  /-- `op = 5`: absorbs one block of ciphertext and decrypts it (R139). -/
  | decrypt (len : Nat)
  /-- `op = 6`: ends the session and returns the tag (R140). -/
  | digest (len : Nat)
  /-- `op = 7`: the reserved operation, rejected with ERR_OP (R66, R192). -/
  | reserved (len : Nat)
  deriving DecidableEq, Repr

/-- The `len` field of an instruction (R61). -/
def Instr.len : Instr → Nat
  | .nop n => n
  | .setKey n => n
  | .setIv n => n
  | .update n => n
  | .encrypt n => n
  | .decrypt n => n
  | .digest n => n
  | .reserved n => n

end Sys2Proof
end

