-- ==== Sys2Proof/WellFormed.lean ====
section
/-!
DEFINITION. Which instructions have a command word: those whose `len` fits the five bits of `word[7:3]`
(spec/30_encoding.md R61). A `len` that is illegal for its operation is still well formed: it is encoded, decoded and
then rejected with ERR_LEN (R69).
-/

namespace Sys2Proof

/-- The one check of the syntax: `len` is a value 0..31 (R61). -/
def Instr.wf (i : Instr) : Bool := i.len < 32

end Sys2Proof
end

