-- ==== Sys2Proof/Decode.lean ====
section
/-!
DEFINITION. The command word's decoder and encoder (spec/30_encoding.md R61, R62, R69, R80). Decoding is total: every
8-bit word decodes to exactly one operation, by `word[2:0]` alone; nothing is refused.
-/

namespace Sys2Proof

/-- `word[2:0]`, the `op` field (R61). -/
def opField (w : BitVec 8) : BitVec 3 := w.extractLsb' 0 3

/-- `word[7:3]`, the `len` field (R61). -/
def lenField (w : BitVec 8) : BitVec 5 := w.extractLsb' 3 5

/-- The operation of a command word with `op` and `len` (R62). -/
def ofFields (op : BitVec 3) (len : Nat) : Instr :=
  match op.toNat with
  | 0 => .nop len
  | 1 => .setKey len
  | 2 => .setIv len
  | 3 => .update len
  | 4 => .encrypt len
  | 5 => .decrypt len
  | 6 => .digest len
  | _ => .reserved len

/-- The instruction a command word stands for (R69, R80). -/
def decodeWord (w : BitVec 8) : Instr := ofFields (opField w) (lenField w).toNat

/-- The instruction the decoder reads from an opcode-table word. The whole instruction is the 8-bit command word, which
has no byte order (R46, R60), so bits above it and bits above `nbits` play no part. -/
def decodeTableWord (nbits w : Nat) : Option Instr :=
  some (decodeWord (BitVec.ofNat 8 (w % 2 ^ nbits)))

/-- The `op` value of an instruction (R62). -/
def opcode : Instr → BitVec 3
  | .nop _ => 0
  | .setKey _ => 1
  | .setIv _ => 2
  | .update _ => 3
  | .encrypt _ => 4
  | .decrypt _ => 5
  | .digest _ => 6
  | .reserved _ => 7

/-- `word = (len << 3) | op` (R61). -/
def encode (i : Instr) : BitVec 8 :=
  (BitVec.ofNat 8 i.len <<< 3) ||| (opcode i).setWidth 8

end Sys2Proof
end

