-- ==== Sys2Proof/Config.lean ====
section
/-!
DEFINITION. What an implementation fixes and the spec leaves open: the block cipher (spec/43_cipher_wrapper.md R170,
spec/92_eei_decisions.md D43).
-/

namespace Sys2Proof

/-- The type of a block cipher's encrypt function `E : Key × Block → Block`, total and deterministic, one for each
instance (R170). Nothing else is assumed of it: it need not be a permutation (R180). -/
abbrev Cipher := (I : Inst) → Key → Block I → Block I

/-- The cipher this core is wired to (R10, R170, R173). It has no body: every theorem about the machine holds for
every cipher. See notes/assumptions/1.md. -/
opaque Config.E : Cipher

end Sys2Proof
end

