-- ==== Sys2Proof/Machine/State.lean ====
section
/-!
DEFINITION. The state of one core as plain data (spec/10_state.md R20 to R39), the transactions of its channels
(spec/20_memory.md R40), the reset state (R37, R221) and the closed reasons for a stop.
-/

namespace Sys2Proof.Machine

/-- The 3-bit sequencing register (R28). Codes 6 and 7 are never produced and have no constructor
(spec/93_implementation_defined.md U20). Its code is `Phase.code`. -/
inductive Phase where
  /-- No session: no successful SET_IV since reset or since the last SET_KEY. -/
  | uninit
  /-- SET_IV done, no byte absorbed yet. -/
  | ivset
  /-- At least one byte of associated data absorbed, no data byte yet. -/
  | ad
  /-- At least one byte encrypted. -/
  | enc
  /-- At least one byte decrypted. -/
  | dec
  /-- DIGEST done. -/
  | done
  deriving DecidableEq, Repr

/-- The status of a response (R72, R190). Codes 6 to 15 are never produced and have no constructor (U20). -/
inductive Status where
  /-- The command was accepted and has completed. -/
  | ok
  /-- Reserved operation (R192). -/
  | errOp
  /-- `len` not legal for the operation (R193). -/
  | errLen
  /-- SET_IV with no key loaded (R194). -/
  | errNokey
  /-- Operation not legal in the current phase (R195). -/
  | errPhase
  /-- Data command after a partial block of the same stream (R196). -/
  | errAlign
  deriving DecidableEq, Repr

/-- One `CMD` transaction: command word, data block, key field (R40, R60). -/
structure Cmd (I : Inst) where
  word : BitVec 8
  data : Block I
  key  : Key
  deriving DecidableEq, Repr

/-- The empty command buffer, between commands. See notes/assumptions/4.md (DESIGN CHOICE). -/
def noCmd (I : Inst) : Cmd I := ⟨0, 0, 0⟩

/-- One `RSP` transaction: response word and data block (R40, R70). -/
structure Rsp (I : Inst) where
  word : BitVec 16
  data : Block I
  deriving DecidableEq, Repr

/-- What the outside world can do to an idle core: present a command on `CMD`, or apply the reset input
(R58, R220). -/
inductive Input (I : Inst) where
  | cmd (c : Cmd I)
  | reset
  deriving DecidableEq, Repr

/-- One transaction on a channel, or one application of the reset input (R40, R220). Each is atomic. -/
inductive Event (I : Inst) where
  /-- A command accepted on `CMD`. -/
  | cmd (c : Cmd I)
  /-- The key forwarded on `CKEY` (R76). -/
  | ckey (k : Key)
  /-- A block sent to the cipher on `CREQ` (R75). -/
  | creq (b : Block I)
  /-- The cipher's answer on `CRSP` (R75, R171). -/
  | crsp (b : Block I)
  /-- A response on `RSP` (R70). -/
  | rsp (r : Rsp I)
  /-- The reset input. -/
  | reset
  deriving DecidableEq, Repr

/-- The state of a core of instance `I`: the session record, the controller's flags and the key (R20), the accepted
command (R36), and the model's own two lists for the channels, `inbox` and `trace`. -/
structure CoreState (I : Inst) where
  /-- Keystream counter block (R21). -/
  Y : Block I
  /-- Hash counter block (R22). -/
  Z : Block I
  /-- Hash accumulator; after DIGEST the whole tag block (R23). -/
  sum : Block I
  /-- Bytes of associated data absorbed, modulo 2^64 (R24). -/
  authSize : BitVec 64
  /-- Bytes of data processed, modulo 2^64 (R25). -/
  dataSize : BitVec 64
  /-- Sequencing state (R28). -/
  phase : Phase
  /-- `key_valid`: a key has been loaded since reset (R29). -/
  keyValid : Bool
  /-- `err_sticky`: a command was rejected since the last accepted SET_IV or reset (R30). -/
  errSticky : Bool
  /-- The cipher key, held on the cipher's side of the wrapper (R33). -/
  K : Key
  /-- The command being executed, its fields sampled once at acceptance (R36, R56); `noCmd` between commands. -/
  cmd : Cmd I
  /-- The model's own: what the host will present, in order, and the core has not accepted yet (R51). -/
  inbox : List (Input I)
  /-- The model's own: every channel transaction so far, oldest first (R40, R53, R54). -/
  trace : List (Event I)
  deriving DecidableEq, Repr

/-- One core: the instance it was built as (R2) and its state. -/
structure State where
  /-- Fixed when the hardware is built; no step changes it (R2, R173). -/
  inst : Inst
  core : CoreState inst
  deriving DecidableEq, Repr

/-- The registers after reset (R37, R221): `phase = UNINIT`, `key_valid = 0`, `err_sticky = 0`. The spec leaves `Y`,
`Z`, `sum`, `authSize`, `dataSize` and `K` unspecified; the model holds zero there (DESIGN CHOICE, unsafe,
notes/assumptions/2.md). Nothing is outstanding on any channel (R220). -/
def CoreState.reset (I : Inst) : CoreState I where
  Y := 0
  Z := 0
  sum := 0
  authSize := 0
  dataSize := 0
  phase := .uninit
  keyValid := false
  errSticky := false
  K := 0
  cmd := noCmd I
  inbox := []
  trace := []

/-- A core of instance `I` right after reset. -/
def State.resetOf (I : Inst) : State := ⟨I, CoreState.reset I⟩

/-- The machine right after reset, built as the 16-byte instance (DESIGN CHOICE, notes/assumptions/3.md). -/
def State.reset : State := State.resetOf .mgm

/-- Reasons for which a step of the machine stops with a fault: none. The spec gives the core no event that stops it;
its five exception-like events are rejections, after which the next command is accepted (R190, R191, R202), so the type
has no constructor and `step` provably never faults. -/
inductive Fault where
  deriving DecidableEq, Repr

/-- Reasons for which the model declines to run an instruction. -/
inductive Refusal where
  /-- Raised by an arm of `exec` whose instruction has no meaning in the model; no arm raises it. Safe: it only stops. -/
  | notModelled (mnemonic : String)
  deriving DecidableEq, Repr

end Sys2Proof.Machine
end

