-- ==== Sys2Proof/Machine/Flags.lean ====
section
/-!
DEFINITION. The codes of `phase` and `status`, the response word, and which command is legal in which phase
(spec/10_state.md R28, spec/30_encoding.md R71 to R73, spec/42_mgm_commands.md R131, R133).
There are no arithmetic condition codes (R31).
-/

namespace Sys2Proof.Machine

/-- The 3-bit code of a phase (R28, R73). -/
def Phase.code : Phase → BitVec 3
  | .uninit => 0
  | .ivset => 1
  | .ad => 2
  | .enc => 3
  | .dec => 4
  | .done => 5

/-- The 4-bit code of a status (R72). -/
def Status.code : Status → BitVec 4
  | .ok => 0
  | .errOp => 1
  | .errLen => 2
  | .errNokey => 3
  | .errPhase => 4
  | .errAlign => 5

/-- The response word `status | (len << 4) | (phase << 9) | (key_valid << 12) | (err_sticky << 13)` (R71). -/
def rspWord (st : Status) (len : Nat) (p : Phase) (keyValid errSticky : Bool) : BitVec 16 :=
  st.code.setWidth 16 ||| (BitVec.ofNat 16 len <<< 4) ||| (p.code.setWidth 16 <<< 9)
    ||| ((BitVec.ofBool keyValid).setWidth 16 <<< 12) ||| ((BitVec.ofBool errSticky).setWidth 16 <<< 13)

/-- The phases in which UPDATE passes the phase check (R131). -/
def updateLegal : Phase → Bool
  | .uninit => false
  | .ivset => true
  | .ad => true
  | .enc => false
  | .dec => false
  | .done => false

/-- The phases in which ENCRYPT passes the phase check (R131). -/
def encryptLegal : Phase → Bool
  | .uninit => false
  | .ivset => true
  | .ad => true
  | .enc => true
  | .dec => false
  | .done => false

/-- The phases in which DECRYPT passes the phase check (R131). -/
def decryptLegal : Phase → Bool
  | .uninit => false
  | .ivset => true
  | .ad => true
  | .enc => false
  | .dec => true
  | .done => false

/-- The phases in which DIGEST passes the phase check (R131). -/
def digestLegal : Phase → Bool
  | .uninit => false
  | .ivset => true
  | .ad => true
  | .enc => true
  | .dec => true
  | .done => false

/-- The alignment check passes: the stream's byte count is a multiple of `B` (R48, R133). -/
def aligned (I : Inst) (size : BitVec 64) : Bool := size.toNat % I.B = 0

end Sys2Proof.Machine
end

