-- ==== Sys2Proof/Machine/Blocks.lean ====
section
/-!
DEFINITION. Byte sequences, the byte order of a block and the block primitives
(spec/00_scope.md R11 to R14, spec/20_memory.md R43, spec/40_block_primitives.md R90 to R101).
The exclusive or of two blocks (R90) is `^^^` on their integers.
-/

namespace Sys2Proof.Machine

/-! ## Bytes and blocks -/

/-- The unsigned integer of a byte sequence, first byte most significant: `int` of R12 on any length. -/
def beNat (s : List Byte) : Nat := s.foldl (fun v b => 256 * v + b.toNat) 0

/-- `blk(int(s))`: the block of a sequence of `B` bytes (R12). -/
def ofBytes {I : Inst} (s : List Byte) : Block I := BitVec.ofNat I.N (beNat s)

/-- `b[i]`: the byte in bit lanes `[8·(B-1-i)+7 : 8·(B-1-i)]` (R43). -/
def byteAt {I : Inst} (b : Block I) (i : Nat) : Byte := b.extractLsb' (8 * (I.B - 1 - i)) 8

/-- The bytes `b[0], …, b[B-1]` of a block (R11). -/
def toBytes {I : Inst} (b : Block I) : List Byte := (List.range I.B).map (byteAt b)

/-- `zeros(n)` (R14). -/
def zeros (n : Nat) : List Byte := List.replicate n 0

/-- The byte-wise exclusive or `a ^ b` of two byte sequences (R14, R90). -/
def xorBytes (a b : List Byte) : List Byte := List.zipWith (· ^^^ ·) a b

/-- `PAD(s)`: the bytes of `s` first, zeros after (R96). It is also `s ‖ zeros(B-len(s))` of a response (R74). -/
def pad {I : Inst} (s : List Byte) : Block I := ofBytes (s ++ zeros (I.B - s.length))

/-- `TRUNC(b, n)`: the first `n` bytes of a block (R97). -/
def trunc {I : Inst} (b : Block I) (n : Nat) : List Byte := (toBytes b).take n

/-! ## Multiplication by x -/

/-- `RED`, the reduction constant: `0x87` for B = 16, `0x1B` for B = 8 (R8, R92, R101). -/
def red : (I : Inst) → Block I
  | .mgm => BitVec.ofNat _ 0x87
  | .mgm64 => BitVec.ofNat _ 0x1B

/-- `MULX(b)`: shift one place toward the most significant bit and, if the bit shifted out was 1, add `RED` (R92). -/
def mulx {I : Inst} (b : Block I) : Block I :=
  if b.msb then (b <<< 1) ^^^ red I else b <<< 1

/-! ## The two half-block counters -/

/-- The big-endian integer of bytes `b[0..HB]`. -/
def firstHalf {I : Inst} (b : Block I) : BitVec (8 * I.HB) := b.extractLsb' (8 * I.HB) (8 * I.HB)

/-- The big-endian integer of bytes `b[HB..B]`. -/
def secondHalf {I : Inst} (b : Block I) : BitVec (8 * I.HB) := b.extractLsb' 0 (8 * I.HB)

/-- `INCR_R(b)`: add one to the second half; its carry is discarded (R94). Used for `Y`. -/
def incrR {I : Inst} (b : Block I) : Block I := firstHalf b ++ (secondHalf b + 1)

/-- `INCR_L(b)`: add one to the first half; its carry is discarded (R95, spec/90_conflicts.md C1). Used for `Z`. -/
def incrL {I : Inst} (b : Block I) : Block I := (firstHalf b + 1) ++ secondHalf b

/-! ## The trailer and the discriminator bit -/

/-- `be_HB(8·n)`: a byte count as a bit count of half a block, high bits lost silently (R98). -/
def bitCount (I : Inst) (n : BitVec 64) : BitVec (8 * I.HB) := BitVec.ofNat (8 * I.HB) (8 * n.toNat)

/-- `TRAILER(a, d)`: the two lengths in bits, associated data first (R98). -/
def trailer {I : Inst} (a d : BitVec 64) : Block I := bitCount I a ++ bitCount I d

/-- The discriminator bit: the most significant bit of `b[0]`, `int(b)[N-1]` (R99). -/
def discrimBit (I : Inst) : Block I := BitVec.twoPow I.N (I.N - 1)

/-- `DISCRIM_Y(n)`: the nonce with the discriminator bit cleared (R99). -/
def discrimY {I : Inst} (n : Block I) : Block I := n &&& ~~~ discrimBit I

/-- `DISCRIM_Z(n)`: the nonce with the discriminator bit set (R99). -/
def discrimZ {I : Inst} (n : Block I) : Block I := n ||| discrimBit I

end Sys2Proof.Machine
end

