-- ==== Sys2Proof/Machine/Hasher.lean ====
section
/-!
DEFINITION. The GF(2^N) multiply-accumulate hasher's arithmetic (spec/41_gf_hasher.md R110 to R122). HASH_STEP, which
also calls the cipher and advances `Z`, is `hashStep` of Machine/Ops.lean.
-/

namespace Sys2Proof.Machine

/-- `V` before scan step `k` of GFMUL: `x · x^k`, one MULX a step (R110, R111). -/
def gfV {I : Inst} (x : Block I) : Nat → Block I
  | 0 => x
  | k + 1 => mulx (gfV x k)

/-- `acc` after the first `k` scan steps of GFMUL: step `k` looks at bit `k` of `int(y)`, that is at the bytes of `y`
from the last to the first and in each byte from bit 0 to bit 7 (R110, R111). -/
def gfAcc {I : Inst} (x y : Block I) : Nat → Block I
  | 0 => 0
  | k + 1 => if y.getLsbD k then gfAcc x y k ^^^ gfV x k else gfAcc x y k

/-- `GFMUL(x, y)`: all N scan steps (R110). -/
def gfmul {I : Inst} (x y : Block I) : Block I := gfAcc x y I.N

/-- `GF_MUL_SUM(sum, x, y)` (R112). -/
def gfMulSum {I : Inst} (sum x y : Block I) : Block I := sum ^^^ gfmul x y

end Sys2Proof.Machine
end

