-- ==== Sys2Proof/Machine/Operands.lean ====
section
/-!
DEFINITION. The operands of a command, read from the command buffer (spec/30_encoding.md R63 to R65,
spec/20_memory.md R47, R49).
-/

namespace Sys2Proof.Machine

/-- `len` is legal for SET_KEY: zero (R63). -/
def setKeyLen (len : Nat) : Bool := len = 0

/-- `len` is legal for SET_IV: exactly `B` (R63). -/
def setIvLen (I : Inst) (len : Nat) : Bool := len = I.B

/-- `len` is legal for UPDATE, ENCRYPT, DECRYPT and DIGEST: 0..B (R63). -/
def blockLen (I : Inst) (len : Nat) : Bool := len ≤ I.B

/-- The data operand `cmd.data[0..len]`; the other lanes are ignored (R47, R64). -/
def dataOperand {I : Inst} (len : Nat) (c : CoreState I) : List Byte := trunc c.cmd.data len

/-- The nonce operand of SET_IV: the whole block (R49, R64). -/
def nonceOperand {I : Inst} (c : CoreState I) : Block I := c.cmd.data

/-- The key operand of SET_KEY: the whole `key` field (R65). -/
def keyOperand {I : Inst} (c : CoreState I) : Key := c.cmd.key

end Sys2Proof.Machine
end

