-- ==== Sys2Proof/Machine/Ops.lean ====
section
/-!
DEFINITION. The shared operations of the commands: the channel transactions, the response, the rejection (the core's
one way of taking an exception: R190, R191), the hash step, acceptance of a command and the reset input. Operations
that call the cipher take it as an argument `E` (spec/00_scope.md R10).
There is no return from an exception to model: a rejection saves nothing and there is nothing to return to (R199).
-/

namespace Sys2Proof.Machine

/-- Record the next channel transactions, in order (R40, R53, R54). -/
def emit {I : Inst} (es : List (Event I)) (c : CoreState I) : CoreState I :=
  { c with trace := c.trace ++ es }

/-- `Ciph(b)`: the value the cipher answers, `E(K, b)` (R171). -/
def ciph {I : Inst} (E : Cipher) (c : CoreState I) (b : Block I) : Block I := E I c.K b

/-- The two transactions of `Ciph(b)`: the block on CREQ, its encryption on CRSP (R171). Nothing else changes. -/
def askCipher {I : Inst} (E : Cipher) (b : Block I) (c : CoreState I) : CoreState I :=
  emit [.creq b, .crsp (ciph E c b)] c

/-- `respond(status, len, data)`: the command's one response, carrying the flags as they are after its writes
(R53, R70, R71). It completes the command (R55), so the command buffer is empty again (notes/assumptions/4.md). -/
def respond {I : Inst} (st : Status) (len : Nat) (data : Block I) (c : CoreState I) : CoreState I :=
  { emit [.rsp ⟨rspWord st len c.phase c.keyValid c.errSticky, data⟩] c with cmd := noCmd I }

/-- `reject(code)`: taking an exception. It writes `err_sticky` and nothing else, calls no cipher and answers
`respond(code, 0, zeros(B))` (R191). -/
def reject {I : Inst} (code : Status) (c : CoreState I) : CoreState I :=
  respond code 0 0 { c with errSticky := true }

/-- `HASH_STEP(blk)`: `H = Ciph(Z)`; fold `blk` into `sum`; advance `Z` (R114). -/
def hashStep {I : Inst} (E : Cipher) (blk : Block I) (c : CoreState I) : CoreState I :=
  { askCipher E c.Z c with
    sum := gfMulSum c.sum (ciph E c c.Z) blk
    Z := incrL c.Z }

/-- A byte count after `len` more bytes, modulo 2^64 (R24, R25). -/
def addSize (size : BitVec 64) (len : Nat) : BitVec 64 := size + BitVec.ofNat 64 len

/-- `Y` after a data block of `len` bytes: incremented after a full block only (R21, R138, R139). -/
def nextY {I : Inst} (len : Nat) (Y : Block I) : Block I := if len = I.B then incrR Y else Y

/-- Acceptance of a command on CMD: its fields are sampled into the command buffer (R51, R56). `rest` is what the host
presents afterwards. -/
def accept {I : Inst} (m : Cmd I) (rest : List (Input I)) (c : CoreState I) : CoreState I :=
  { emit [.cmd m] c with inbox := rest, cmd := m }

/-- The reset input, applied between commands (R220, R222). The channels' past stays in `trace`; what the host presents
afterwards is `rest`; every register takes its reset value. -/
def applyReset {I : Inst} (rest : List (Input I)) (c : CoreState I) : CoreState I :=
  { CoreState.reset I with inbox := rest, trace := c.trace ++ [.reset] }

end Sys2Proof.Machine
end

