-- ==== Sys2Proof/Machine/Control.lean ====
section
/-!
DEFINITION. The commands that touch no session data: NOP (spec/42_mgm_commands.md R135), SET_KEY
(spec/43_cipher_wrapper.md R175) and the reserved operation (spec/60_exceptions.md R192).
-/

namespace Sys2Proof.Machine

/-- NOP on a core: no register is read or written; the response reports the flags. `len` is ignored (R68, R135). -/
def nopCmd {I : Inst} (_len : Nat) (c : CoreState I) : CoreState I := respond .ok 0 0 c

/-- SET_KEY on a core: forwards the key on CKEY, sets `K` and `key_valid`, ends any session; the session registers and
`err_sticky` stay as they are (R175). -/
def setKeyCmd {I : Inst} (len : Nat) (c : CoreState I) : CoreState I :=
  if !setKeyLen len then reject .errLen c
  else
    respond .ok 0 0
      { emit [.ckey (keyOperand c)] c with
        K := keyOperand c
        keyValid := true
        phase := .uninit }

/-- The reserved operation on a core: ERR_OP whatever `len` is (R66, R192). -/
def reservedCmd {I : Inst} (_len : Nat) (c : CoreState I) : CoreState I := reject .errOp c

/-- NOP (R135). -/
def execNop (len : Nat) (s : State) : Host.Outcome State Fault Refusal :=
  .next ⟨s.inst, nopCmd len s.core⟩

/-- SET_KEY (R175). -/
def execSetKey (len : Nat) (s : State) : Host.Outcome State Fault Refusal :=
  .next ⟨s.inst, setKeyCmd len s.core⟩

/-- The reserved operation code 7 (R192). -/
def execReserved (len : Nat) (s : State) : Host.Outcome State Fault Refusal :=
  .next ⟨s.inst, reservedCmd len s.core⟩

end Sys2Proof.Machine
end

