-- ==== Sys2Proof/Machine/Session.lean ====
section
/-!
DEFINITION. The commands that open and close a session: SET_IV (spec/42_mgm_commands.md R136) and DIGEST (R140).
-/

namespace Sys2Proof.Machine

/-- SET_IV on a core under cipher `E`. The checks stand in the order of R197; the cipher is asked for `Y` first, then
for `Z` (R136, R144). -/
def setIvCmd {I : Inst} (E : Cipher) (len : Nat) (c : CoreState I) : CoreState I :=
  if !setIvLen I len then reject .errLen c
  else if !c.keyValid then reject .errNokey c
  else
    respond .ok 0 0
      { askCipher E (discrimZ (nonceOperand c)) (askCipher E (discrimY (nonceOperand c)) c) with
        Y := ciph E c (discrimY (nonceOperand c))
        Z := ciph E c (discrimZ (nonceOperand c))
        sum := 0
        authSize := 0
        dataSize := 0
        phase := .ivset
        errSticky := false }

/-- The end of DIGEST, after the trailer's hash step: `sum` is encrypted in place and its first `len` bytes are the
tag (R140). -/
def finishDigest {I : Inst} (E : Cipher) (len : Nat) (c : CoreState I) : CoreState I :=
  respond .ok len (pad (trunc (ciph E c c.sum) len))
    { askCipher E c.sum c with
      sum := ciph E c c.sum
      phase := .done }

/-- DIGEST on a core under cipher `E` (R140). There is no alignment check: a session may end on a partial block. -/
def digestCmd {I : Inst} (E : Cipher) (len : Nat) (c : CoreState I) : CoreState I :=
  if !blockLen I len then reject .errLen c
  else if !digestLegal c.phase then reject .errPhase c
  else finishDigest E len (hashStep E (trailer c.authSize c.dataSize) c)

/-- SET_IV (R136). -/
def execSetIv (len : Nat) (s : State) : Host.Outcome State Fault Refusal :=
  .next ⟨s.inst, setIvCmd Config.E len s.core⟩

/-- DIGEST (R140). -/
def execDigest (len : Nat) (s : State) : Host.Outcome State Fault Refusal :=
  .next ⟨s.inst, digestCmd Config.E len s.core⟩

end Sys2Proof.Machine
end

