-- ==== Sys2Proof/Machine/Stream.lean ====
section
/-!
DEFINITION. The data commands: UPDATE (spec/42_mgm_commands.md R137), ENCRYPT (R138) and DECRYPT (R139). Each checks
`len`, then the phase, then the alignment of its own stream (R197); with `len = 0` it then changes nothing (R142).
-/

namespace Sys2Proof.Machine

/-- UPDATE's work for `len ≥ 1`: one hash step on the padded block (R137). -/
def absorb {I : Inst} (E : Cipher) (len : Nat) (c : CoreState I) : CoreState I :=
  { hashStep E (pad (dataOperand len c)) c with
    authSize := addSize c.authSize len
    phase := .ad }

/-- UPDATE on a core under cipher `E` (R137). -/
def updateCmd {I : Inst} (E : Cipher) (len : Nat) (c : CoreState I) : CoreState I :=
  if !blockLen I len then reject .errLen c
  else if !updateLegal c.phase then reject .errPhase c
  else if !aligned I c.authSize then reject .errAlign c
  else if len = 0 then respond .ok 0 0 c
  else respond .ok 0 0 (absorb E len c)

/-- The output bytes of a data block: the operand under the keystream block `Ciph(Y)`, truncated (R138, R139). -/
def streamOut {I : Inst} (E : Cipher) (len : Nat) (c : CoreState I) : List Byte :=
  xorBytes (dataOperand len c) (trunc (ciph E c c.Y) len)

/-- ENCRYPT's work for `len ≥ 1`: `Ciph(Y)` first, then the hash step on the ciphertext (R138). -/
def encryptBlock {I : Inst} (E : Cipher) (len : Nat) (c : CoreState I) : CoreState I :=
  { hashStep E (pad (streamOut E len c)) (askCipher E c.Y c) with
    Y := nextY len c.Y
    dataSize := addSize c.dataSize len
    phase := .enc }

/-- ENCRYPT on a core under cipher `E` (R138). -/
def encryptCmd {I : Inst} (E : Cipher) (len : Nat) (c : CoreState I) : CoreState I :=
  if !blockLen I len then reject .errLen c
  else if !encryptLegal c.phase then reject .errPhase c
  else if !aligned I c.dataSize then reject .errAlign c
  else if len = 0 then respond .ok 0 0 c
  else respond .ok len (pad (streamOut E len c)) (encryptBlock E len c)

/-- DECRYPT's work for `len ≥ 1`: the hash step on the ciphertext it was given first, then `Ciph(Y)`
(R139, spec/90_conflicts.md C9). -/
def decryptBlock {I : Inst} (E : Cipher) (len : Nat) (c : CoreState I) : CoreState I :=
  { askCipher E c.Y (hashStep E (pad (dataOperand len c)) c) with
    Y := nextY len c.Y
    dataSize := addSize c.dataSize len
    phase := .dec }

/-- DECRYPT on a core under cipher `E` (R139). It returns the plaintext unconditionally (R200). -/
def decryptCmd {I : Inst} (E : Cipher) (len : Nat) (c : CoreState I) : CoreState I :=
  if !blockLen I len then reject .errLen c
  else if !decryptLegal c.phase then reject .errPhase c
  else if !aligned I c.dataSize then reject .errAlign c
  else if len = 0 then respond .ok 0 0 c
  else respond .ok len (pad (streamOut E len c)) (decryptBlock E len c)

/-- UPDATE (R137). -/
def execUpdate (len : Nat) (s : State) : Host.Outcome State Fault Refusal :=
  .next ⟨s.inst, updateCmd Config.E len s.core⟩

/-- ENCRYPT (R138). -/
def execEncrypt (len : Nat) (s : State) : Host.Outcome State Fault Refusal :=
  .next ⟨s.inst, encryptCmd Config.E len s.core⟩

/-- DECRYPT (R139). -/
def execDecrypt (len : Nat) (s : State) : Host.Outcome State Fault Refusal :=
  .next ⟨s.inst, decryptCmd Config.E len s.core⟩

end Sys2Proof.Machine
end

