-- ==== Sys2Proof/Machine/Dispatch.lean ====
section
/-! DEFINITION. One arm per constructor of Instr: the meaning of each command (spec/30_encoding.md R62). -/

namespace Sys2Proof.Machine

def exec (i : Instr) (s : State) : Host.Outcome State Fault Refusal :=
  match i with
  | .nop len => Sys2Proof.Machine.execNop len s
  | .setKey len => Sys2Proof.Machine.execSetKey len s
  | .setIv len => Sys2Proof.Machine.execSetIv len s
  | .update len => Sys2Proof.Machine.execUpdate len s
  | .encrypt len => Sys2Proof.Machine.execEncrypt len s
  | .decrypt len => Sys2Proof.Machine.execDecrypt len s
  | .digest len => Sys2Proof.Machine.execDigest len s
  | .reserved len => Sys2Proof.Machine.execReserved len s

end Sys2Proof.Machine
end

