-- ==== Sys2Proof/Machine/Step.lean ====
section
/-!
DEFINITION. One step of the machine: the core accepts the next thing the host presents (spec/20_memory.md R51, R58).
A command is one atomic step (R52); an idle core holds its state (spec/60_exceptions.md R208).
-/

namespace Sys2Proof.Machine

/-- One step. Nothing presented: the core stays as it is (R208). The reset input: `applyReset` (R220). A command: it is
accepted, decoded and executed (R51, R56, R69). -/
def step (s : State) : Host.Outcome State Fault Refusal :=
  match s.core.inbox with
  | [] => .next s
  | .reset :: rest => .next ⟨s.inst, applyReset rest s.core⟩
  | .cmd m :: rest => exec (decodeWord m.word) ⟨s.inst, accept m rest s.core⟩

/-- `s` with the command word of `w` presented next on CMD, its `data` and `key` fields zero, before anything the host
presents already: the core's next step accepts and runs exactly it (notes/assumptions/5.md). -/
def State.withFetchWord (s : State) (nbits w : Nat) : State :=
  ⟨s.inst, { s.core with inbox := .cmd ⟨BitVec.ofNat 8 (w % 2 ^ nbits), 0, 0⟩ :: s.core.inbox }⟩

end Sys2Proof.Machine
end

