-- ==== Sys2Proof/Machine/Api.lean ====
section
/-!
DEFINITION. The host's side of the command channel as the spec gives it: the textual command syntax
(spec/30_encoding.md R78, R79), the source's buffer-level calls as command sequences
(spec/42_mgm_commands.md R150 to R153), and what a host reads from the responses (R74, R152).
-/

namespace Sys2Proof.Machine

/-- One line of the command syntax of R78. A byte operand has `len = ` the number of its bytes. -/
inductive Asm (I : Inst) where
  | nop
  | setKey (k : Key)
  | setIv (nonce : Block I)
  | update (s : List Byte)
  | encrypt (s : List Byte)
  | decrypt (s : List Byte)
  | digest (n : Nat)
  /-- `.word xx`: the byte itself, for reserved and illegal words; the other fields are zero. -/
  | word (w : BitVec 8)
  deriving DecidableEq, Repr

/-- The command a line stands for (R78). Fields a line does not name, and bytes beyond the operand, are zero (DESIGN CHOICE,
notes/assumptions/15.md). A count `n` above 31 has no command word (R61) and the spec gives such a line, or the call
`digest(n)` (R150), no meaning: the model encodes `n mod 32`, so `digest 40` is the word of `DIGEST 8` (DESIGN CHOICE,
unsafe, notes/assumptions/17.md). -/
def assemble {I : Inst} : Asm I → Cmd I
  | .nop => ⟨encode (.nop 0), 0, 0⟩
  | .setKey k => ⟨encode (.setKey 0), 0, k⟩
  | .setIv n => ⟨encode (.setIv I.B), n, 0⟩
  | .update s => ⟨encode (.update s.length), pad s, 0⟩
  | .encrypt s => ⟨encode (.encrypt s.length), pad s, 0⟩
  | .decrypt s => ⟨encode (.decrypt s.length), pad s, 0⟩
  | .digest n => ⟨encode (.digest n), 0, 0⟩
  | .word w => ⟨w, 0, 0⟩

/-- A buffer cut into blocks: `bytes[kB..kB+B]` for `k < L div B`, then the `L mod B` bytes left over if there are any
(R151). -/
def chunks (I : Inst) (s : List Byte) : List (List Byte) :=
  (List.range (s.length / I.B)).map (fun k => (s.drop (k * I.B)).take I.B) ++
    if s.length % I.B = 0 then [] else [s.drop (s.length - s.length % I.B)]

/-- The source's `update(bytes)` (R79, R151). -/
def updateCall {I : Inst} (s : List Byte) : List (Asm I) := (chunks I s).map .update

/-- The source's `encrypt(bytes)` (R79, R152). -/
def encryptCall {I : Inst} (s : List Byte) : List (Asm I) := (chunks I s).map .encrypt

/-- The source's `decrypt(bytes)` (R79, R152). -/
def decryptCall {I : Inst} (s : List Byte) : List (Asm I) := (chunks I s).map .decrypt

/-- `seal(Kx, Nx, A, P, t)` (R153). For `t` above 31 see notes/assumptions/17.md. -/
def sealCall {I : Inst} (k : Key) (nonce : Block I) (A P : List Byte) (t : Nat) : List (Asm I) :=
  [.setKey k, .setIv nonce] ++ updateCall A ++ encryptCall P ++ [.digest t]

/-- `open_raw(Kx, Nx, A, C, t)` (R153). For `t` above 31 see notes/assumptions/17.md. The host compares the tag; the core never does (R200). -/
def openCall {I : Inst} (k : Key) (nonce : Block I) (A C : List Byte) (t : Nat) : List (Asm I) :=
  [.setKey k, .setIv nonce] ++ updateCall A ++ decryptCall C ++ [.digest t]

/-- A core to which the host is about to present the commands of `prog` and nothing else, with no channel past. -/
def present {I : Inst} (prog : List (Asm I)) (c : CoreState I) : State :=
  ⟨I, { c with inbox := prog.map (fun a => .cmd (assemble a)), trace := [] }⟩

/-- The core after it has executed all commands of `prog` (R51). -/
def runCalls {I : Inst} (prog : List (Asm I)) (c : CoreState I) : Host.Outcome State Fault Refusal :=
  Host.Core.run Sys2Proof.core prog.length (present prog c)

/-- The `len` field of a response word (R71). -/
def rspLen (w : BitVec 16) : Nat := (w.extractLsb' 4 5).toNat

/-- The bytes a response carries: `data[0..len]` (R74). -/
def rspBytes {I : Inst} (r : Rsp I) : List Byte := trunc r.data (rspLen r.word)

/-- The bytes of a response transaction; none for any other transaction. -/
def eventBytes {I : Inst} : Event I → List Byte
  | .rsp r => rspBytes r
  | .cmd _ => []
  | .ckey _ => []
  | .creq _ => []
  | .crsp _ => []
  | .reset => []

/-- What the host gets: the response bytes, concatenated in order (R152). -/
def outputBytes {I : Inst} (tr : List (Event I)) : List Byte := tr.flatMap eventBytes

end Sys2Proof.Machine
end

