-- ==== Sys2Proof/Safety.lean ====
section
/-!
DEFINITION. What counts as a safe run, in the terms the statements use: the session invariants (spec/10_state.md R38),
the protocol of the channels (spec/20_memory.md R51 to R54), the verdict of the checks in their fixed order
(spec/60_exceptions.md R197), what of the state can be observed (R221), and the closed forms of a session
(spec/42_mgm_commands.md R143, R154). Nothing here is part of the machine.
-/

namespace Sys2Proof.Machine

/-! ## The checks and the tables of the spec, written from their own rules -/

/-- The legal values of `len` per operation (R63). The reserved operation has none. -/
def lenLegal (I : Inst) : Instr → Bool
  | .nop _ => true
  | .setKey n => n = 0
  | .setIv n => n = I.B
  | .update n => n ≤ I.B
  | .encrypt n => n ≤ I.B
  | .decrypt n => n ≤ I.B
  | .digest n => n ≤ I.B
  | .reserved _ => false

/-- The table of R131: does the operation pass the phase check in this phase. -/
def phaseLegal : Instr → Phase → Bool
  | .nop _, _ => true
  | .setKey _, _ => true
  | .setIv _, _ => true
  | .update _, p => p ∈ [Phase.ivset, .ad]
  | .encrypt _, p => p ∈ [Phase.ivset, .ad, .enc]
  | .decrypt _, p => p ∈ [Phase.ivset, .ad, .dec]
  | .digest _, p => p ∈ [Phase.ivset, .ad, .enc, .dec]
  | .reserved _, _ => false

/-- The stream of a data command stands at a block boundary (R133). -/
def streamAligned {I : Inst} (c : CoreState I) : Instr → Bool
  | .update _ => c.authSize.toNat % I.B = 0
  | .encrypt _ => c.dataSize.toNat % I.B = 0
  | .decrypt _ => c.dataSize.toNat % I.B = 0
  | .nop _ => true
  | .setKey _ => true
  | .setIv _ => true
  | .digest _ => true
  | .reserved _ => true

/-- The key that SET_IV, and SET_IV alone, is checked for (R194). -/
def keyPresent {I : Inst} (c : CoreState I) : Instr → Bool
  | .setIv _ => c.keyValid
  | .nop _ => true
  | .setKey _ => true
  | .update _ => true
  | .encrypt _ => true
  | .decrypt _ => true
  | .digest _ => true
  | .reserved _ => true

/-- The verdict of the checks in the fixed order of R197: the first that fails gives the code. -/
def verdict {I : Inst} (c : CoreState I) (i : Instr) : Status :=
  if opcode i = 7 then .errOp
  else if !lenLegal I i then .errLen
  else if !keyPresent c i then .errNokey
  else if !phaseLegal i c.phase then .errPhase
  else if !streamAligned c i then .errAlign
  else .ok

/-- What a rejection with `code` leaves, field by field: `err_sticky <- 1`, one response
`respond(code, 0, zeros(B))`, nothing else (R191). -/
def rejectedState {I : Inst} (code : Status) (c : CoreState I) : CoreState I :=
  { c with
    errSticky := true
    cmd := noCmd I
    trace := c.trace ++ [.rsp ⟨rspWord code 0 c.phase c.keyValid true, 0⟩] }

/-- The phase after an accepted command (R132). -/
def phaseAfter : Instr → Phase → Phase
  | .nop _, p => p
  | .setKey _, _ => .uninit
  | .setIv _, _ => .ivset
  | .update n, p => if n = 0 then p else .ad
  | .encrypt n, p => if n = 0 then p else .enc
  | .decrypt n, p => if n = 0 then p else .dec
  | .digest _, _ => .done
  | .reserved _, p => p

/-- The request and the answer of one `Ciph(b)` under key `k` (R171). -/
def cipherPair {I : Inst} (E : Cipher) (k : Key) (b : Block I) : List (Event I) := [.creq b, .crsp (E I k b)]

/-- The transactions of an accepted command between its acceptance and its response (R144, R175). -/
def trafficOf {I : Inst} (E : Cipher) (c : CoreState I) : Instr → List (Event I)
  | .nop _ => []
  | .setKey _ => [.ckey c.cmd.key]
  | .setIv _ => cipherPair E c.K (discrimY c.cmd.data) ++ cipherPair E c.K (discrimZ c.cmd.data)
  | .update n => if n = 0 then [] else cipherPair E c.K c.Z
  | .encrypt n => if n = 0 then [] else cipherPair E c.K c.Y ++ cipherPair E c.K c.Z
  | .decrypt n => if n = 0 then [] else cipherPair E c.K c.Z ++ cipherPair E c.K c.Y
  | .digest _ =>
      cipherPair E c.K c.Z ++
        cipherPair E c.K (c.sum ^^^ gfmul (E I c.K c.Z) (trailer c.authSize c.dataSize))
  | .reserved _ => []

/-! ## The session invariants -/

/-- The part of R38 (a) to (c) that every command keeps from every state: a live session has a key; straight after
SET_IV nothing has been absorbed and `sum` is zero; while associated data is absorbed no data has been. (R38 (c)'s
`authSize ≥ 1` and (d)'s `dataSize ≥ 1` hold only until the 64-bit counter wraps.) Between commands the command buffer
is empty. -/
structure CoreState.Inv {I : Inst} (c : CoreState I) : Prop where
  live_has_key : c.phase ≠ .uninit → c.keyValid = true
  ivset_sizes : c.phase = .ivset → c.authSize = 0 ∧ c.dataSize = 0
  ivset_sum : c.phase = .ivset → c.sum = 0
  ad_no_data : c.phase = .ad → c.dataSize = 0
  buffer_empty : c.cmd = noCmd I

/-- The invariant of a state. -/
def State.Inv (s : State) : Prop := s.core.Inv

/-! ## The protocol of the channels -/

/-- What a core owes on its channels: nothing, a response, or first the cipher's answer to a block. -/
inductive Owes (I : Inst) where
  | nothing
  | response
  | answer (b : Block I)
  deriving DecidableEq, Repr

/-- A response has the form the spec gives it: a produced status and phase code, bits 15:14 zero, `len ≤ B`, data beyond
`len` zero (R47, R71 to R74); a response that reports a rejection carries no byte and has `err_sticky = 1` (R74, R191). -/
def rspWellFormed {I : Inst} (r : Rsp I) : Bool :=
  (r.word.extractLsb' 0 4).toNat ≤ 5 && (r.word.extractLsb' 9 3).toNat ≤ 5 && r.word.extractLsb' 14 2 == 0
    && rspLen r.word ≤ I.B && r.data == pad (trunc r.data (rspLen r.word))
    && (r.word.extractLsb' 0 4 == 0 || (rspLen r.word == 0 && r.data == 0 && r.word.getLsbD 13))

/-- One transaction allowed by the protocol: a command is accepted only when nothing is owed (R51); a cipher request
needs a key and no request outstanding, and its answer is `E(K, b)` for the key last sent (R54, R171); exactly one
well-formed response completes the command after all its requests are answered (R53). After the reset input nothing is
assumed of the key (R222). -/
def chanStep {I : Inst} (E : Cipher) : Owes I × Option Key → Event I → Option (Owes I × Option Key)
  | (.nothing, k), .cmd _ => some (.response, k)
  | (.nothing, _), .reset => some (.nothing, none)
  | (.response, _), .ckey k => some (.response, some k)
  | (.response, some k), .creq b => some (.answer b, some k)
  | (.answer b, some k), .crsp r => if r = E I k b then some (.response, some k) else none
  | (.response, k), .rsp r => if rspWellFormed r then some (.nothing, k) else none
  | _, _ => none

/-- A sequence of transactions allowed by the protocol. -/
def chanRun {I : Inst} (E : Cipher) : List (Event I) → Owes I × Option Key → Option (Owes I × Option Key)
  | [], o => some o
  | e :: es, o => (chanStep E o e).bind (chanRun E es)

/-- The channels' past follows the protocol, nothing is owed, and the key last sent is the one the cipher holds. -/
def CoreState.ChannelsOk {I : Inst} (c : CoreState I) : Prop :=
  chanRun Config.E c.trace (.nothing, none) = some (.nothing, if c.keyValid then some c.K else none)

/-- A safe state: the session invariants hold and the channels' past follows the protocol. -/
def State.Safe (s : State) : Prop := s.Inv ∧ s.core.ChannelsOk

/-! ## What can be observed -/

/-- Two states of a core that differ at most in registers no rule reads: the session registers while there is no session
and `K` while there is no key (R37, R221). -/
structure SameVisible {I : Inst} (c d : CoreState I) : Prop where
  phase : c.phase = d.phase
  keyValid : c.keyValid = d.keyValid
  errSticky : c.errSticky = d.errSticky
  cmd : c.cmd = d.cmd
  inbox : c.inbox = d.inbox
  trace : c.trace = d.trace
  session : c.phase ≠ .uninit →
    c.Y = d.Y ∧ c.Z = d.Z ∧ c.sum = d.sum ∧ c.authSize = d.authSize ∧ c.dataSize = d.dataSize
  key : c.keyValid = true → c.K = d.K

/-! ## Closed forms -/

/-- `Y_1` of a session (R143). -/
def firstY {I : Inst} (E : Cipher) (k : Key) (nonce : Block I) : Block I := E I k (discrimY nonce)

/-- `Z_1` of a session (R143). -/
def firstZ {I : Inst} (E : Cipher) (k : Key) (nonce : Block I) : Block I := E I k (discrimZ nonce)

/-- `Z_{m+1}`: the hash counter after `m` hash steps from `z` (R143). -/
def zAfter {I : Inst} (z : Block I) : Nat → Block I
  | 0 => z
  | m + 1 => zAfter (incrL z) m

/-- `GFMUL(H_1, M_1) ^ … ^ GFMUL(H_m, M_m)` with `H_i = Ciph(Z_i)`, `Z_1 = z` (R115). -/
def hashOf {I : Inst} (E : Cipher) (k : Key) (z : Block I) : List (Block I) → Block I
  | [] => 0
  | M :: Ms => gfmul (E I k z) M ^^^ hashOf E k (incrL z) Ms

/-- The `i`-th piece of a stream under `TRUNC(Ciph(Y_i), len)`, `Y_1 = y`, concatenated (R143, R154). -/
def keystreamXor {I : Inst} (E : Cipher) (k : Key) (y : Block I) : List (List Byte) → List Byte
  | [] => []
  | p :: ps => xorBytes p (trunc (E I k y) p.length) ++ keystreamXor E k (incrR y) ps

/-- The ciphertext of a message (R154). -/
def ciphertextOf {I : Inst} (E : Cipher) (k : Key) (nonce : Block I) (P : List Byte) : List Byte :=
  keystreamXor E k (firstY E k nonce) (chunks I P)

/-- A byte count as the 64-bit counters hold it. -/
def size64 (s : List Byte) : BitVec 64 := BitVec.ofNat 64 s.length

/-- The blocks a session hashes: the padded blocks of the associated data, those of the ciphertext, the trailer
(R154). -/
def hashedBlocks (I : Inst) (A C : List Byte) : List (Block I) :=
  (chunks I A).map pad ++ (chunks I C).map pad ++ [trailer (size64 A) (size64 C)]

/-- The tag of a message with associated data `A` and ciphertext `C`, in closed form (R154). -/
def tagOf {I : Inst} (E : Cipher) (k : Key) (nonce : Block I) (A C : List Byte) (t : Nat) : List Byte :=
  trunc (E I k (hashOf E k (firstZ E k nonce) (hashedBlocks I A C))) t

end Sys2Proof.Machine
end

