-- ==== Sys2Proof/Certificates/Slice0/Obligations.lean ====
section
/-!
DEFINITION. The statements for the provers. Each formalises a rule of spec/ or follows from several; its docstring names
them, and the log entry of any choice of the model it rests on. `Config.E` has no body, so a statement that mentions it,
or the machine, holds for every cipher (R10, R170).
-/

open Sys2Proof Sys2Proof.Machine

/-! ## The command word -/

/-- Decoding the word of a well-formed instruction gives the instruction back, with every `len` the five bits admit
(30_encoding.md, R61). -/
def Obligations.EncodedInstructionDecodesToItself : Prop :=
  ∀ i : Instr, i.wf = true →
    decodeWord (encode i) = i ∧ decodeTableWord 8 (encode i).toNat = some i

/-- `word = (len << 3) | op`: `op` is `word[2:0]`, `len` is `word[7:3]`, and no bit is left over (R61). -/
def Obligations.CommandWordIsOpAndLen : Prop :=
  (∀ w : BitVec 8,
    opcode (decodeWord w) = w.extractLsb' 0 3 ∧ (decodeWord w).len = (w.extractLsb' 3 5).toNat ∧
      encode (decodeWord w) = w) ∧
  ∀ i : Instr, i.wf = true → (encode i).toNat = i.len * 2 ^ 3 + (opcode i).toNat

/-- The eight patterns of the command table, by mask `0x07` and match (R80). -/
def Obligations.WordsMatchTheCommandTable : Prop :=
  ∀ w : BitVec 8,
    (w &&& 0x07 = 0x00 → decodeWord w = .nop (w >>> 3).toNat) ∧
    (w &&& 0x07 = 0x01 → decodeWord w = .setKey (w >>> 3).toNat) ∧
    (w &&& 0x07 = 0x02 → decodeWord w = .setIv (w >>> 3).toNat) ∧
    (w &&& 0x07 = 0x03 → decodeWord w = .update (w >>> 3).toNat) ∧
    (w &&& 0x07 = 0x04 → decodeWord w = .encrypt (w >>> 3).toNat) ∧
    (w &&& 0x07 = 0x05 → decodeWord w = .decrypt (w >>> 3).toNat) ∧
    (w &&& 0x07 = 0x06 → decodeWord w = .digest (w >>> 3).toNat) ∧
    (w &&& 0x07 = 0x07 → decodeWord w = .reserved (w >>> 3).toNat)

/-- The worked encodings under the command table (R80). -/
def Obligations.WorkedEncodingsDecode : Prop :=
  decodeWord 0x82 = .setIv 16 ∧ decodeWord 0x83 = .update 16 ∧ decodeWord 0x4B = .update 9 ∧
  decodeWord 0x84 = .encrypt 16 ∧ decodeWord 0x1C = .encrypt 3 ∧ decodeWord 0x85 = .decrypt 16 ∧
  decodeWord 0x1D = .decrypt 3 ∧ decodeWord 0x86 = .digest 16 ∧ decodeWord 0x46 = .digest 8 ∧
  decodeWord 0x42 = .setIv 8 ∧ decodeWord 0x26 = .digest 4 ∧ decodeWord 0x01 = .setKey 0 ∧
  decodeWord 0xF8 = .nop 31 ∧ decodeWord 0xFF = .reserved 31

/-- How many of the 256 words decode to an operation with a property. -/
def Sys2Proof.Machine.countWords (p : Instr → Bool) : Nat :=
  ((List.range 256).filter (fun w => p (decodeWord (BitVec.ofNat 8 w)))).length

/-- Every word decodes by `word[2:0]` alone, and the counts of legal and rejected words of both instances (R69). -/
def Obligations.CountsOfLegalAndRejectedWords : Prop :=
  (∀ v w : BitVec 8, v &&& 0x07 = w &&& 0x07 → opcode (decodeWord v) = opcode (decodeWord w)) ∧
  ∀ I : Inst,
    countWords (fun i => opcode i == 0) = 32 ∧
    countWords (fun i => opcode i == 1 && lenLegal I i) = 1 ∧
    countWords (fun i => opcode i == 2 && lenLegal I i) = 1 ∧
    (∀ op ∈ [(3 : BitVec 3), 4, 5, 6],
      countWords (fun i => opcode i == op && lenLegal I i) = I.B + 1) ∧
    countWords (fun i => opcode i == 7) = 32 ∧
    countWords (fun i => opcode i != 7 && !lenLegal I i) = (match I with | .mgm => 122 | .mgm64 => 154) ∧
    countWords (fun i => !lenLegal I i) = (match I with | .mgm => 154 | .mgm64 => 186)

/-- The codes of `status` (R72) and of `phase` (R28, R73), and the response word field by field (R71). -/
def Obligations.ResponseWordFields : Prop :=
  (Status.ok.code = 0 ∧ Status.errOp.code = 1 ∧ Status.errLen.code = 2 ∧ Status.errNokey.code = 3 ∧
    Status.errPhase.code = 4 ∧ Status.errAlign.code = 5) ∧
  (Phase.uninit.code = 0 ∧ Phase.ivset.code = 1 ∧ Phase.ad.code = 2 ∧ Phase.enc.code = 3 ∧ Phase.dec.code = 4 ∧
    Phase.done.code = 5) ∧
  ∀ (st : Status) (len : Nat) (p : Phase) (kv es : Bool), len < 32 →
    (rspWord st len p kv es).extractLsb' 0 4 = st.code ∧
    ((rspWord st len p kv es).extractLsb' 4 5).toNat = len ∧
    (rspWord st len p kv es).extractLsb' 9 3 = p.code ∧
    (rspWord st len p kv es).getLsbD 12 = kv ∧
    (rspWord st len p kv es).getLsbD 13 = es ∧
    (rspWord st len p kv es).extractLsb' 14 2 = 0

/-! ## The step, the reset input, the idle core -/

/-- When the host presents a command whose word decodes to the well-formed instruction `i`, the step is `exec i` in the
state in which the command is accepted: it is off the host's list, its fields are in the command buffer, and its
transaction is recorded (R51, R56). The two lists are the model's own (notes/assumptions/5.md and 8.md). -/
def Obligations.StepRunsTheDecodedCommand : Prop :=
  ∀ (I : Inst) (c : CoreState I) (m : Cmd I) (rest : List (Input I)) (i : Instr),
    c.inbox = .cmd m :: rest → decodeWord m.word = i → i.wf = true →
    step ⟨I, c⟩ = exec i ⟨I, { c with inbox := rest, cmd := m, trace := c.trace ++ [.cmd m] }⟩

/-- A core to which nothing is presented holds its state, for any length of time (R208). -/
def Obligations.IdleCoreHoldsItsState : Prop :=
  ∀ (s : State) (k : Nat), s.core.inbox = [] → Host.Core.run core k s = .next s

/-- The reset input takes a core in any state to `phase = UNINIT`, `key_valid = 0`, `err_sticky = 0`, with no command in
execution; it answers nothing and accepts nothing from the host's list (R220, R221). Nothing is said of the registers
the spec leaves unspecified. How the empty command buffer looks is the model's choice (notes/assumptions/4.md). -/
def Obligations.ResetInputClearsTheFlags : Prop :=
  ∀ (I : Inst) (c : CoreState I) (rest : List (Input I)), c.inbox = .reset :: rest →
    ∃ t : CoreState I, step ⟨I, c⟩ = .next ⟨I, t⟩ ∧ t.phase = .uninit ∧ t.keyValid = false ∧ t.errSticky = false ∧
      t.cmd = noCmd I ∧ t.inbox = rest ∧ t.trace = c.trace ++ [.reset]

/-- Every step of every state ends in a next state of the same instance: the instance is fixed when the hardware is built
(R2), and no state is reached in which commands are no longer accepted (R202). R202 excepts a core that waits for ever on
a cipher that never answers: the model folds the cipher into the step, so it "has no such case" (R242;
notes/assumptions/6.md, DEDUCED). Of the hardware the statement holds while the cipher answers. -/
def Obligations.EveryStepCompletesInTheSameInstance : Prop :=
  ∀ s : State, ∃ t : CoreState s.inst, step s = .next ⟨s.inst, t⟩

/-! ## The commands, one by one: all branches of each rule's pseudocode, the whole state after

Each next state here has an empty command buffer, `cmd := noCmd I`, in `rejectedState` too. That the buffer is emptied by
the response, to all zeros, is no rule of the spec: it is the model's choice (notes/assumptions/4.md, DESIGN CHOICE). -/

/-- NOP, with any `len`: no register changes; the response reports the unchanged flags (R135). The all-zero command
buffer after it is the model's choice (notes/assumptions/4.md). -/
def Obligations.NopOnlyReportsTheFlags : Prop :=
  ∀ (I : Inst) (c : CoreState I) (len : Nat),
    exec (.nop len) ⟨I, c⟩ = .next ⟨I, { c with
      cmd := noCmd I
      trace := c.trace ++ [.rsp ⟨rspWord .ok 0 c.phase c.keyValid c.errSticky, 0⟩] }⟩

/-- The reserved operation: ERR_OP whatever `len`, operands, phase and key are (R192), with the state of a rejection
(R191). The all-zero command buffer after it is the model's choice (notes/assumptions/4.md). -/
def Obligations.ReservedOperationIsRejected : Prop :=
  ∀ (I : Inst) (c : CoreState I) (len : Nat),
    exec (.reserved len) ⟨I, c⟩ = .next ⟨I, rejectedState .errOp c⟩

/-- SET_KEY (R175). The all-zero command buffer after it is the model's choice (notes/assumptions/4.md). -/
def Obligations.SetKeyLoadsTheKeyAndEndsTheSession : Prop :=
  ∀ (I : Inst) (c : CoreState I) (len : Nat),
    (len ≠ 0 → exec (.setKey len) ⟨I, c⟩ = .next ⟨I, rejectedState .errLen c⟩) ∧
    (len = 0 → exec (.setKey len) ⟨I, c⟩ = .next ⟨I, { c with
      K := c.cmd.key
      keyValid := true
      phase := .uninit
      cmd := noCmd I
      trace := c.trace ++ [.ckey c.cmd.key, .rsp ⟨rspWord .ok 0 .uninit true c.errSticky, 0⟩] }⟩)

/-- SET_IV (R136). The all-zero command buffer after it is the model's choice (notes/assumptions/4.md). -/
def Obligations.SetIvStartsASession : Prop :=
  ∀ (I : Inst) (c : CoreState I) (len : Nat),
    (len ≠ I.B → exec (.setIv len) ⟨I, c⟩ = .next ⟨I, rejectedState .errLen c⟩) ∧
    (len = I.B → c.keyValid = false → exec (.setIv len) ⟨I, c⟩ = .next ⟨I, rejectedState .errNokey c⟩) ∧
    (len = I.B → c.keyValid = true → exec (.setIv len) ⟨I, c⟩ = .next ⟨I, { c with
      Y := Config.E I c.K (discrimY c.cmd.data)
      Z := Config.E I c.K (discrimZ c.cmd.data)
      sum := 0
      authSize := 0
      dataSize := 0
      phase := .ivset
      errSticky := false
      cmd := noCmd I
      trace := c.trace ++
        [.creq (discrimY c.cmd.data), .crsp (Config.E I c.K (discrimY c.cmd.data)),
         .creq (discrimZ c.cmd.data), .crsp (Config.E I c.K (discrimZ c.cmd.data)),
         .rsp ⟨rspWord .ok 0 .ivset true false, 0⟩] }⟩)

/-- UPDATE (R137). The all-zero command buffer after it is the model's choice (notes/assumptions/4.md). -/
def Obligations.UpdateAbsorbsOneBlock : Prop :=
  ∀ (I : Inst) (c : CoreState I) (len : Nat),
    (I.B < len → exec (.update len) ⟨I, c⟩ = .next ⟨I, rejectedState .errLen c⟩) ∧
    (len ≤ I.B → c.phase ∉ [Phase.ivset, .ad] →
      exec (.update len) ⟨I, c⟩ = .next ⟨I, rejectedState .errPhase c⟩) ∧
    (len ≤ I.B → c.phase ∈ [Phase.ivset, .ad] → c.authSize.toNat % I.B ≠ 0 →
      exec (.update len) ⟨I, c⟩ = .next ⟨I, rejectedState .errAlign c⟩) ∧
    (len = 0 → c.phase ∈ [Phase.ivset, .ad] → c.authSize.toNat % I.B = 0 →
      exec (.update len) ⟨I, c⟩ = .next ⟨I, { c with
        cmd := noCmd I
        trace := c.trace ++ [.rsp ⟨rspWord .ok 0 c.phase c.keyValid c.errSticky, 0⟩] }⟩) ∧
    (1 ≤ len → len ≤ I.B → c.phase ∈ [Phase.ivset, .ad] → c.authSize.toNat % I.B = 0 →
      exec (.update len) ⟨I, c⟩ = .next ⟨I, { c with
        sum := c.sum ^^^ gfmul (Config.E I c.K c.Z) (pad (trunc c.cmd.data len))
        Z := incrL c.Z
        authSize := c.authSize + BitVec.ofNat 64 len
        phase := .ad
        cmd := noCmd I
        trace := c.trace ++
          [.creq c.Z, .crsp (Config.E I c.K c.Z), .rsp ⟨rspWord .ok 0 .ad c.keyValid c.errSticky, 0⟩] }⟩)

/-- ENCRYPT (R138). The all-zero command buffer after it is the model's choice (notes/assumptions/4.md). -/
def Obligations.EncryptAbsorbsTheCiphertextItReturns : Prop :=
  ∀ (I : Inst) (c : CoreState I) (len : Nat),
    (I.B < len → exec (.encrypt len) ⟨I, c⟩ = .next ⟨I, rejectedState .errLen c⟩) ∧
    (len ≤ I.B → c.phase ∉ [Phase.ivset, .ad, .enc] →
      exec (.encrypt len) ⟨I, c⟩ = .next ⟨I, rejectedState .errPhase c⟩) ∧
    (len ≤ I.B → c.phase ∈ [Phase.ivset, .ad, .enc] → c.dataSize.toNat % I.B ≠ 0 →
      exec (.encrypt len) ⟨I, c⟩ = .next ⟨I, rejectedState .errAlign c⟩) ∧
    (len = 0 → c.phase ∈ [Phase.ivset, .ad, .enc] → c.dataSize.toNat % I.B = 0 →
      exec (.encrypt len) ⟨I, c⟩ = .next ⟨I, { c with
        cmd := noCmd I
        trace := c.trace ++ [.rsp ⟨rspWord .ok 0 c.phase c.keyValid c.errSticky, 0⟩] }⟩) ∧
    (1 ≤ len → len ≤ I.B → c.phase ∈ [Phase.ivset, .ad, .enc] → c.dataSize.toNat % I.B = 0 →
      ∀ out : List Byte, out = xorBytes (trunc c.cmd.data len) (trunc (Config.E I c.K c.Y) len) →
      exec (.encrypt len) ⟨I, c⟩ = .next ⟨I, { c with
        Y := if len = I.B then incrR c.Y else c.Y
        Z := incrL c.Z
        sum := c.sum ^^^ gfmul (Config.E I c.K c.Z) (pad out)
        dataSize := c.dataSize + BitVec.ofNat 64 len
        phase := .enc
        cmd := noCmd I
        trace := c.trace ++
          [.creq c.Y, .crsp (Config.E I c.K c.Y), .creq c.Z, .crsp (Config.E I c.K c.Z),
           .rsp ⟨rspWord .ok len .enc c.keyValid c.errSticky, pad out⟩] }⟩)

/-- DECRYPT (R139): the hash step on the ciphertext given comes first, and so does its cipher request.
The all-zero command buffer after it is the model's choice (notes/assumptions/4.md). -/
def Obligations.DecryptAbsorbsTheCiphertextItIsGiven : Prop :=
  ∀ (I : Inst) (c : CoreState I) (len : Nat),
    (I.B < len → exec (.decrypt len) ⟨I, c⟩ = .next ⟨I, rejectedState .errLen c⟩) ∧
    (len ≤ I.B → c.phase ∉ [Phase.ivset, .ad, .dec] →
      exec (.decrypt len) ⟨I, c⟩ = .next ⟨I, rejectedState .errPhase c⟩) ∧
    (len ≤ I.B → c.phase ∈ [Phase.ivset, .ad, .dec] → c.dataSize.toNat % I.B ≠ 0 →
      exec (.decrypt len) ⟨I, c⟩ = .next ⟨I, rejectedState .errAlign c⟩) ∧
    (len = 0 → c.phase ∈ [Phase.ivset, .ad, .dec] → c.dataSize.toNat % I.B = 0 →
      exec (.decrypt len) ⟨I, c⟩ = .next ⟨I, { c with
        cmd := noCmd I
        trace := c.trace ++ [.rsp ⟨rspWord .ok 0 c.phase c.keyValid c.errSticky, 0⟩] }⟩) ∧
    (1 ≤ len → len ≤ I.B → c.phase ∈ [Phase.ivset, .ad, .dec] → c.dataSize.toNat % I.B = 0 →
      ∀ out : List Byte, out = xorBytes (trunc c.cmd.data len) (trunc (Config.E I c.K c.Y) len) →
      exec (.decrypt len) ⟨I, c⟩ = .next ⟨I, { c with
        Y := if len = I.B then incrR c.Y else c.Y
        Z := incrL c.Z
        sum := c.sum ^^^ gfmul (Config.E I c.K c.Z) (pad (trunc c.cmd.data len))
        dataSize := c.dataSize + BitVec.ofNat 64 len
        phase := .dec
        cmd := noCmd I
        trace := c.trace ++
          [.creq c.Z, .crsp (Config.E I c.K c.Z), .creq c.Y, .crsp (Config.E I c.K c.Y),
           .rsp ⟨rspWord .ok len .dec c.keyValid c.errSticky, pad out⟩] }⟩)

/-- DIGEST (R140). The all-zero command buffer after it is the model's choice (notes/assumptions/4.md). -/
def Obligations.DigestReturnsTheTag : Prop :=
  ∀ (I : Inst) (c : CoreState I) (len : Nat),
    (I.B < len → exec (.digest len) ⟨I, c⟩ = .next ⟨I, rejectedState .errLen c⟩) ∧
    (len ≤ I.B → c.phase ∉ [Phase.ivset, .ad, .enc, .dec] →
      exec (.digest len) ⟨I, c⟩ = .next ⟨I, rejectedState .errPhase c⟩) ∧
    (len ≤ I.B → c.phase ∈ [Phase.ivset, .ad, .enc, .dec] →
      ∀ folded tag : Block I,
        folded = c.sum ^^^ gfmul (Config.E I c.K c.Z) (trailer c.authSize c.dataSize) →
        tag = Config.E I c.K folded →
      exec (.digest len) ⟨I, c⟩ = .next ⟨I, { c with
        sum := tag
        Z := incrL c.Z
        phase := .done
        cmd := noCmd I
        trace := c.trace ++
          [.creq c.Z, .crsp (Config.E I c.K c.Z), .creq folded, .crsp tag,
           .rsp ⟨rspWord .ok len .done c.keyValid c.errSticky, pad (trunc tag len)⟩] }⟩)

/-- A data command with `len = 0` that passes all its checks changes no register and calls no cipher (R142).
The all-zero command buffer after it is the model's choice (notes/assumptions/4.md). -/
def Obligations.ZeroLengthDataCommandsChangeNothing : Prop :=
  ∀ (I : Inst) (c : CoreState I) (i : Instr), i ∈ [Instr.update 0, .encrypt 0, .decrypt 0] → verdict c i = .ok →
    exec i ⟨I, c⟩ = .next ⟨I, { c with
      cmd := noCmd I
      trace := c.trace ++ [.rsp ⟨rspWord .ok 0 c.phase c.keyValid c.errSticky, 0⟩] }⟩

/-! ## Rules over all commands -/

/-- The checks of every command are made in the one fixed order, the first that fails gives the code, and a command that
fails one does nothing but set `err_sticky` and answer with the code (R191, R197); a command that passes them all is
accepted: its one response says OK. The all-zero command buffer of `rejectedState` is the model's choice
(notes/assumptions/4.md). -/
def Obligations.FirstFailingCheckRejectsTheCommand : Prop :=
  ∀ (I : Inst) (c : CoreState I) (i : Instr),
    (verdict c i ≠ .ok → exec i ⟨I, c⟩ = .next ⟨I, rejectedState (verdict c i) c⟩) ∧
    (verdict c i = .ok → ∃ (t : CoreState I) (mid : List (Event I)) (r : Rsp I),
      exec i ⟨I, c⟩ = .next ⟨I, t⟩ ∧ t.trace = c.trace ++ mid ++ [.rsp r] ∧
      r.word.extractLsb' 0 4 = Status.ok.code ∧ ∀ e ∈ mid, ∀ q, e ≠ .rsp q)

/-- A command that passes its checks asks the cipher for exactly the blocks of the table, in order, and then answers
once with status OK, a `len` of at most `B` and the flags as they are after its writes (R144, R53, R71). -/
def Obligations.AcceptedCommandsFollowTheTrafficTable : Prop :=
  ∀ (I : Inst) (c : CoreState I) (i : Instr), verdict c i = .ok →
    ∃ (t : CoreState I) (len : Nat) (data : Block I),
      exec i ⟨I, c⟩ = .next ⟨I, t⟩ ∧ len ≤ I.B ∧
      t.trace = c.trace ++ trafficOf Config.E c i ++
        [.rsp ⟨rspWord .ok len t.phase t.keyValid t.errSticky, data⟩]

/-- Each accepted command gives exactly one response, after all its cipher traffic, carrying the flags as they are after
the command and a `len` of at most `B`; and it takes exactly one command off the host's list (R51, R53, R71). The all-zero
command buffer after it is the model's choice (notes/assumptions/4.md). -/
def Obligations.OneResponsePerCommand : Prop :=
  ∀ (I : Inst) (c : CoreState I) (m : Cmd I) (rest : List (Input I)), c.inbox = .cmd m :: rest →
    ∃ (t : CoreState I) (mid : List (Event I)) (st : Status) (len : Nat) (data : Block I),
      step ⟨I, c⟩ = .next ⟨I, t⟩ ∧ t.inbox = rest ∧ t.cmd = noCmd I ∧ len ≤ I.B ∧
      t.trace = c.trace ++ [.cmd m] ++ mid ++ [.rsp ⟨rspWord st len t.phase t.keyValid t.errSticky, data⟩] ∧
      ∀ e ∈ mid, (∃ k, e = .ckey k) ∨ (∃ b, e = .creq b) ∨ (∃ b, e = .crsp b)

/-- The phase after an accepted command is the table's; a rejected command leaves it unchanged (R132). -/
def Obligations.PhaseAfterEveryCommand : Prop :=
  ∀ (I : Inst) (c : CoreState I) (i : Instr),
    ∃ t : CoreState I, exec i ⟨I, c⟩ = .next ⟨I, t⟩ ∧
      t.phase = if verdict c i = .ok then phaseAfter i c.phase else c.phase

/-- `key_valid` is 0 after reset, becomes 1 at an accepted SET_KEY, is cleared by nothing but reset, and SET_IV is
rejected while it is 0 (R29); `K` changes by an accepted SET_KEY alone, as long as no reset comes (R33, R175, R179). The
all-zero command buffer of `rejectedState` is the model's choice (notes/assumptions/4.md). -/
def Obligations.KeyIsWrittenBySetKeyAlone : Prop :=
  (∀ I : Inst, (State.resetOf I).core.keyValid = false) ∧
  (∀ (I : Inst) (c : CoreState I), c.keyValid = false →
    exec (.setIv I.B) ⟨I, c⟩ = .next ⟨I, rejectedState .errNokey c⟩) ∧
  ∀ (I : Inst) (c : CoreState I),
    (∀ rest, c.inbox = .reset :: rest → ∃ t : CoreState I, step ⟨I, c⟩ = .next ⟨I, t⟩ ∧ t.keyValid = false) ∧
    (∀ m rest, c.inbox = .cmd m :: rest → ∃ t : CoreState I, step ⟨I, c⟩ = .next ⟨I, t⟩ ∧
      (decodeWord m.word = .setKey 0 → t.keyValid = true ∧ t.K = m.key) ∧
      (decodeWord m.word ≠ .setKey 0 → t.keyValid = c.keyValid ∧ t.K = c.K))

/-- `err_sticky`: every rejected command writes 1, an accepted SET_IV writes 0, reset writes 0, no other command changes
it, and every response carries it (R30). -/
def Obligations.ErrStickyIsSetByRejectionsAlone : Prop :=
  (∀ (I : Inst) (c : CoreState I) (rest : List (Input I)), c.inbox = .reset :: rest →
    ∃ t : CoreState I, step ⟨I, c⟩ = .next ⟨I, t⟩ ∧ t.errSticky = false) ∧
  ∀ (I : Inst) (c : CoreState I) (i : Instr),
    ∃ (t : CoreState I) (mid : List (Event I)) (r : Rsp I),
      exec i ⟨I, c⟩ = .next ⟨I, t⟩ ∧ t.trace = c.trace ++ mid ++ [.rsp r] ∧ r.word.getLsbD 13 = t.errSticky ∧
      (verdict c i ≠ .ok → t.errSticky = true) ∧
      (verdict c i = .ok → opcode i = 2 → t.errSticky = false) ∧
      (verdict c i = .ok → opcode i ≠ 2 → t.errSticky = c.errSticky)

/-- No command but those the register table lists as writers of a register changes it: the frame of every command
(R20). SET_IV, ENCRYPT and DECRYPT write `Y`; these, UPDATE and DIGEST write `Z` and `sum`; SET_IV and UPDATE write
`authSize`; SET_IV, ENCRYPT and DECRYPT write `dataSize`; SET_KEY writes `K` and `key_valid`; every rejected command and
SET_IV write `err_sticky`; NOP and the reserved operation write none of the others and leave `phase`; no command touches
the host's list. -/
def Obligations.RegistersAreWrittenOnlyByTheirWriters : Prop :=
  ∀ (I : Inst) (c : CoreState I) (i : Instr),
    ∃ t : CoreState I, exec i ⟨I, c⟩ = .next ⟨I, t⟩ ∧ t.inbox = c.inbox ∧
      (opcode i ∉ [(2 : BitVec 3), 4, 5] → t.Y = c.Y) ∧
      (opcode i ∉ [(2 : BitVec 3), 3, 4, 5, 6] → t.Z = c.Z ∧ t.sum = c.sum) ∧
      (opcode i ∉ [(2 : BitVec 3), 3] → t.authSize = c.authSize) ∧
      (opcode i ∉ [(2 : BitVec 3), 4, 5] → t.dataSize = c.dataSize) ∧
      (opcode i ≠ 1 → t.K = c.K ∧ t.keyValid = c.keyValid) ∧
      (verdict c i = .ok → opcode i ≠ 2 → t.errSticky = c.errSticky) ∧
      (opcode i ∉ [(1 : BitVec 3), 2, 3, 4, 5, 6] → t.phase = c.phase)

/-- During a session the first half of `Y` and the second half of `Z` never change: only SET_IV writes them
(R38 (e)). -/
def Obligations.SessionKeepsHalfOfEachCounter : Prop :=
  ∀ (I : Inst) (c : CoreState I) (i : Instr), opcode i ≠ 2 →
    ∃ t : CoreState I, exec i ⟨I, c⟩ = .next ⟨I, t⟩ ∧
      firstHalf t.Y = firstHalf c.Y ∧ secondHalf t.Z = secondHalf c.Z

/-- The lanes of `CMD.data` beyond the operand and the fields a command does not use are ignored, and so is the
discriminator bit of SET_IV's nonce: commands that differ only there leave the same state and the same responses
(R64, R65, R99). That the whole states agree rests on the command buffer being emptied, the model's choice
(notes/assumptions/4.md). -/
def Obligations.UnusedCommandLanesAreIgnored : Prop :=
  ∀ (I : Inst) (c : CoreState I) (m m' : Cmd I) (i : Instr),
    (match i with
      | .nop _ => True
      | .setKey _ => m.key = m'.key
      | .setIv _ => m.data ||| discrimBit I = m'.data ||| discrimBit I
      | .update n => trunc m.data n = trunc m'.data n
      | .encrypt n => trunc m.data n = trunc m'.data n
      | .decrypt n => trunc m.data n = trunc m'.data n
      | .digest _ => True
      | .reserved _ => True) →
    exec i ⟨I, { c with cmd := m }⟩ = exec i ⟨I, { c with cmd := m' }⟩

/-! ## Invariants -/

/-- Right after reset a core of either instance is safe (R37). That `State.reset` is the 16-byte instance and that the
command buffer is all zero are the model's choices (notes/assumptions/3.md and 4.md). -/
def Obligations.ResetStateIsSafe : Prop :=
  State.reset.Safe ∧ ∀ I : Inst, (State.resetOf I).Safe

/-- Every step keeps the session invariants (R38), and with them the empty command buffer, which is the model's choice
(notes/assumptions/4.md). -/
def Obligations.EveryStepKeepsTheSessionInvariant : Prop :=
  ∀ s t : State, s.Inv → step s = .next t → t.Inv

/-- Every step keeps the protocol of the channels: no command is accepted while another executes, one cipher request at
a time, each answered with `E(K, b)` for the key last sent and none before a key was sent, one well-formed response per
command after all its requests (R51 to R54, R71 to R74, R171). `State.Safe` holds the session invariants too, and so the
empty command buffer, which is the model's choice (notes/assumptions/4.md). -/
def Obligations.EveryStepKeepsTheChannelProtocol : Prop :=
  ∀ s t : State, s.Safe → step s = .next t → t.Safe

/-- The registers the spec leaves unspecified after reset, and those a SET_KEY leaves behind, cannot be observed: two
cores that differ at most in session registers without a session and in `K` without a key make the same step, with the
same transactions, and differ at most there again (R221). So the values notes/assumptions/2.md chooses at reset are
never seen on a channel. -/
def Obligations.DeadRegistersCannotBeObserved : Prop :=
  (∀ (I : Inst) (y z u : Block I) (a d : BitVec 64) (k : Key),
    SameVisible (CoreState.reset I)
      { CoreState.reset I with Y := y, Z := z, sum := u, authSize := a, dataSize := d, K := k }) ∧
  ∀ (I : Inst) (c d : CoreState I), (c.phase ≠ .uninit → c.keyValid = true) → SameVisible c d →
    ∃ c' d' : CoreState I, step ⟨I, c⟩ = .next ⟨I, c'⟩ ∧ step ⟨I, d⟩ = .next ⟨I, d'⟩ ∧
      SameVisible c' d' ∧ (c'.phase ≠ .uninit → c'.keyValid = true)

/-! ## The block primitives -/

/-- PAD, TRUNC and the byte order of a block (R12, R43, R96, R97). -/
def Obligations.PadAndTruncateOnBytes : Prop :=
  ∀ I : Inst,
    (∀ s : List Byte, s.length ≤ I.B → toBytes (pad s : Block I) = s ++ zeros (I.B - s.length)) ∧
    (∀ s : List Byte, s.length ≤ I.B → trunc (pad s : Block I) s.length = s) ∧
    (∀ b : Block I, pad (toBytes b) = b ∧ beNat (toBytes b) = b.toNat) ∧
    (∀ b : Block I, trunc b I.B = toBytes b ∧ trunc b 0 = [])

/-- INCR_R adds one to the second half and INCR_L to the first; the carry out of a half is discarded (R94, R95). -/
def Obligations.IncrementsAddOneToOneHalf : Prop :=
  ∀ (I : Inst) (b : Block I),
    (incrR b).toNat =
      b.toNat / 2 ^ (8 * I.HB) * 2 ^ (8 * I.HB) + (b.toNat % 2 ^ (8 * I.HB) + 1) % 2 ^ (8 * I.HB) ∧
    (incrL b).toNat =
      (b.toNat / 2 ^ (8 * I.HB) + 1) % 2 ^ (8 * I.HB) * 2 ^ (8 * I.HB) + b.toNat % 2 ^ (8 * I.HB)

/-- The increments are bijections, commute, and come round after `2^(8·HB)` applications (R100). -/
def Obligations.IncrementsAreCyclicAndCommute : Prop :=
  ∀ I : Inst,
    Function.Bijective (incrR : Block I → Block I) ∧ Function.Bijective (incrL : Block I → Block I) ∧
    (∀ b : Block I, incrR (incrL b) = incrL (incrR b)) ∧
    (∀ b : Block I, (incrR : Block I → Block I)^[2 ^ (8 * I.HB)] b = b) ∧
    (∀ b : Block I, (incrL : Block I → Block I)^[2 ^ (8 * I.HB)] b = b)

/-- DISCRIM_Y clears and DISCRIM_Z sets the most significant bit of the first byte; the results differ in that bit and
no other; nonces that differ in that bit alone give the same two blocks (R99). -/
def Obligations.DiscriminatorBitOfTheNonce : Prop :=
  ∀ (I : Inst) (n : Block I),
    toBytes (discrimY n) = (byteAt n 0 &&& 0x7F) :: (toBytes n).drop 1 ∧
    toBytes (discrimZ n) = (byteAt n 0 ||| 0x80) :: (toBytes n).drop 1 ∧
    discrimY n ^^^ discrimZ n = BitVec.twoPow I.N (I.N - 1) ∧
    discrimY n ≠ discrimZ n ∧
    ∀ m : Block I, m ||| discrimBit I = n ||| discrimBit I → discrimY m = discrimY n ∧ discrimZ m = discrimZ n

/-- The trailer is the two lengths in bits, associated data first, each keeping the low `8·HB` bits (R98). -/
def Obligations.TrailerHoldsTheBitCounts : Prop :=
  ∀ (I : Inst) (a d : BitVec 64),
    (trailer a d : Block I).toNat =
      8 * a.toNat % 2 ^ (8 * I.HB) * 2 ^ (8 * I.HB) + 8 * d.toNat % 2 ^ (8 * I.HB)

/-- Two sessions have the same trailer exactly when their byte counts agree modulo `2^61` (B = 16) or `2^29` (B = 8)
(R236 (a)). -/
def Obligations.TrailersCollideModuloTheFieldWidth : Prop :=
  ∀ (I : Inst) (a d a' d' : BitVec 64),
    (trailer a d : Block I) = trailer a' d' ↔
      a.toNat % 2 ^ (8 * I.HB - 3) = a'.toNat % 2 ^ (8 * I.HB - 3) ∧
      d.toNat % 2 ^ (8 * I.HB - 3) = d'.toNat % 2 ^ (8 * I.HB - 3)

/-! ## The arithmetic of GF(2^N) -/

/-- `poly(b)`: bit `k` of `int(b)` is the coefficient of `x^k` (R13). -/
noncomputable def Sys2Proof.Machine.polyOf {I : Inst} (b : Block I) : Polynomial (ZMod 2) :=
  ∑ k ∈ Finset.range I.N, if b.getLsbD k then Polynomial.X ^ k else 0

/-- `f`: x^128 + x^7 + x^2 + x + 1 for B = 16, x^64 + x^4 + x^3 + x + 1 for B = 8 (R101). -/
noncomputable def Sys2Proof.Machine.fieldPoly : Inst → Polynomial (ZMod 2)
  | .mgm => Polynomial.X ^ 128 + Polynomial.X ^ 7 + Polynomial.X ^ 2 + Polynomial.X + 1
  | .mgm64 => Polynomial.X ^ 64 + Polynomial.X ^ 4 + Polynomial.X ^ 3 + Polynomial.X + 1

/-- XOR is byte-wise, an integer exclusive or, and addition of polynomials (R90, R91). -/
def Obligations.XorIsBytewiseAndAdditionOfPolynomials : Prop :=
  ∀ (I : Inst) (a b : Block I),
    toBytes (a ^^^ b) = xorBytes (toBytes a) (toBytes b) ∧ polyOf (a ^^^ b) = polyOf a + polyOf b

/-- GFMUL is multiplication of polynomials modulo `f` (R116). -/
def Obligations.GfmulIsMultiplicationModuloF : Prop :=
  ∀ (I : Inst) (x y : Block I),
    polyOf (gfmul x y) = Polynomial.modByMonic (polyOf x * polyOf y) (fieldPoly I)

/-- GFMUL is commutative (R117). -/
def Obligations.GfmulIsCommutative : Prop :=
  ∀ (I : Inst) (x y : Block I), gfmul x y = gfmul y x

/-- GFMUL is linear over XOR in each argument (R118). -/
def Obligations.GfmulIsLinearInEachArgument : Prop :=
  ∀ (I : Inst) (a b y : Block I),
    gfmul (a ^^^ b) y = gfmul a y ^^^ gfmul b y ∧ gfmul y (a ^^^ b) = gfmul y a ^^^ gfmul y b

/-- GFMUL is associative, `blk(1)` is its identity and `zeros(B)` annihilates (R119, less its remark on inverses). -/
def Obligations.GfmulIsAssociativeWithIdentity : Prop :=
  ∀ (I : Inst) (x y z : Block I),
    gfmul (gfmul x y) z = gfmul x (gfmul y z) ∧
    gfmul x (BitVec.ofNat I.N 1) = x ∧ gfmul (BitVec.ofNat I.N 1) x = x ∧ gfmul x 0 = 0 ∧ gfmul 0 x = 0

/-- MULX is linear, a bijection, and multiplication by x; applied `k` times it multiplies by `x^k` (R93). -/
def Obligations.MulxIsMultiplicationByX : Prop :=
  ∀ I : Inst,
    (∀ a b : Block I, mulx (a ^^^ b) = mulx a ^^^ mulx b) ∧
    Function.Bijective (mulx : Block I → Block I) ∧
    (∀ b : Block I, mulx b = gfmul b (BitVec.ofNat I.N 2)) ∧
    (∀ (b : Block I) (k : Nat),
      polyOf ((mulx : Block I → Block I)^[k] b) =
        Polynomial.modByMonic (polyOf b * Polynomial.X ^ k) (fieldPoly I))

/-! ## Sessions -/

/-- ENCRYPT and DECRYPT are each other's inverse on the data and identical on the state: from equal states, DECRYPT of
the bytes an ENCRYPT returned gives back the plaintext and leaves the same `Y`, `Z`, `sum` and `dataSize` (R141). -/
def Obligations.DecryptInvertsEncrypt : Prop :=
  ∀ (I : Inst) (c : CoreState I) (m : Cmd I) (len : Nat),
    c.phase ∈ [Phase.ivset, .ad] → c.dataSize.toNat % I.B = 0 → 1 ≤ len → len ≤ I.B →
    ∃ (e : CoreState I) (mid : List (Event I)) (r : Rsp I),
      exec (.encrypt len) ⟨I, { c with cmd := m }⟩ = .next ⟨I, e⟩ ∧ e.phase = .enc ∧
      e.trace = c.trace ++ mid ++ [.rsp r] ∧ (rspBytes r).length = len ∧
      ∀ m' : Cmd I, trunc m'.data len = rspBytes r →
        ∃ (d : CoreState I) (mid' : List (Event I)) (r' : Rsp I),
          exec (.decrypt len) ⟨I, { c with cmd := m' }⟩ = .next ⟨I, d⟩ ∧ d.phase = .dec ∧
          d.trace = c.trace ++ mid' ++ [.rsp r'] ∧ rspBytes r' = trunc m.data len ∧
          d.Y = e.Y ∧ d.Z = e.Z ∧ d.sum = e.sum ∧ d.dataSize = e.dataSize

/-- The tag of a shorter DIGEST is a prefix of the tag of a longer one from the same state (R140, R234). -/
def Obligations.ShorterTagIsAPrefix : Prop :=
  ∀ (I : Inst) (c : CoreState I) (n m : Nat), digestLegal c.phase = true → n ≤ m → m ≤ I.B →
    ∃ (t u : CoreState I) (mid : List (Event I)) (r q : Rsp I),
      exec (.digest n) ⟨I, c⟩ = .next ⟨I, t⟩ ∧ t.trace = c.trace ++ mid ++ [.rsp r] ∧
      exec (.digest m) ⟨I, c⟩ = .next ⟨I, u⟩ ∧ u.trace = c.trace ++ mid ++ [.rsp q] ∧
      rspBytes r = (rspBytes q).take n ∧ (rspBytes r).length = n

/-- The source's `update(bytes)`, run command by command on a core whose associated-data stream is open: `sum`, `Z` and
`authSize` have their closed forms, nothing is returned, and no other register changes (R115, R151, R152).
The fields a command does not name are zero, the model's choice (notes/assumptions/15.md);
`Obligations.UnusedCommandLanesAreIgnored` lifts it. -/
def Obligations.UpdateCallHasItsClosedForm : Prop :=
  ∀ (I : Inst) (c : CoreState I) (s : List Byte),
    c.phase ∈ [Phase.ivset, .ad] → c.authSize.toNat % I.B = 0 →
    ∃ t : CoreState I, runCalls (updateCall s) c = .next ⟨I, t⟩ ∧
      t.sum = c.sum ^^^ hashOf Config.E c.K c.Z ((chunks I s).map pad) ∧
      t.Z = zAfter c.Z (chunks I s).length ∧
      t.authSize = c.authSize + size64 s ∧
      t.phase = (if s = [] then c.phase else .ad) ∧
      t.Y = c.Y ∧ t.dataSize = c.dataSize ∧ t.K = c.K ∧ t.keyValid = c.keyValid ∧ t.errSticky = c.errSticky ∧
      t.inbox = [] ∧ outputBytes t.trace = []

/-- `seal` from any state of a core returns the ciphertext and the tag of the closed form, for every cipher, key, nonce,
associated data, plaintext and tag length up to a block (R154).
The fields a command does not name are zero, the model's choice (notes/assumptions/15.md);
`Obligations.UnusedCommandLanesAreIgnored` lifts it. -/
def Obligations.SealReturnsTheClosedForm : Prop :=
  ∀ (I : Inst) (c : CoreState I) (k : Key) (nonce : Block I) (A P : List Byte) (t : Nat), t ≤ I.B →
    ∃ e : CoreState I, runCalls (sealCall k nonce A P t) c = .next ⟨I, e⟩ ∧
      e.phase = .done ∧ e.errSticky = false ∧
      outputBytes e.trace =
        ciphertextOf Config.E k nonce P ++ tagOf Config.E k nonce A (ciphertextOf Config.E k nonce P) t

/-- Round trip, determinism, no expansion, partial blocks: whatever states two cores are in, `seal` on one gives a
ciphertext of the plaintext's length and a tag of the length asked for, which depend on nothing else, and `open_raw` of
that ciphertext on the other gives back the plaintext and the same tag (R155).
The fields a command does not name are zero, the model's choice (notes/assumptions/15.md);
`Obligations.UnusedCommandLanesAreIgnored` lifts it. -/
def Obligations.OpenAfterSealGivesBackThePlaintext : Prop :=
  ∀ (I : Inst) (k : Key) (nonce : Block I) (A P : List Byte) (t : Nat), t ≤ I.B →
    ∃ C T : List Byte, C.length = P.length ∧ T.length = t ∧
      ∀ c : CoreState I,
        (∃ e : CoreState I, runCalls (sealCall k nonce A P t) c = .next ⟨I, e⟩ ∧ outputBytes e.trace = C ++ T) ∧
        (∃ e : CoreState I, runCalls (openCall k nonce A C t) c = .next ⟨I, e⟩ ∧ outputBytes e.trace = P ++ T)

/-- The tag of the empty message with no associated data is `TRUNC(Ciph(zeros(B)), t)`, whatever the nonce (R225).
The fields a command does not name are zero, the model's choice (notes/assumptions/15.md);
`Obligations.UnusedCommandLanesAreIgnored` lifts it. -/
def Obligations.EmptyMessageTagIgnoresTheNonce : Prop :=
  ∀ (I : Inst) (c : CoreState I) (k : Key) (nonce : Block I) (t : Nat), t ≤ I.B →
    ∃ e : CoreState I, runCalls [.setKey k, .setIv nonce, .digest t] c = .next ⟨I, e⟩ ∧
      outputBytes e.trace = trunc (Config.E I k 0) t
end

