-- ==== Sys2Proof/Laws/Blocks.lean ====
section
/-!
SUPPORT. Small lemmas of the block primitives: the two halves of a block (R94, R95), a block and its bytes (R11, R12,
R43), and the first laws of the field arithmetic's loop (R110).
-/

namespace Sys2Proof.Machine

theorem inst_HB_pos (I : Inst) : 0 < I.HB := by cases I <;> decide

theorem inst_B_pos (I : Inst) : 0 < I.B := by cases I <;> decide

theorem inst_N_eq (I : Inst) : I.N = 8 * I.B := by simp only [Inst.N, Inst.B]; omega

theorem firstHalf_append {I : Inst} (a b : BitVec (8 * I.HB)) : firstHalf (I := I) (a ++ b) = a := by
  ext i hi
  simp only [firstHalf, BitVec.getElem_extractLsb', BitVec.getLsbD_append]
  rw [if_neg (by omega), Nat.add_sub_cancel_left]; exact BitVec.getLsbD_eq_getElem hi

theorem secondHalf_append {I : Inst} (a b : BitVec (8 * I.HB)) : secondHalf (I := I) (a ++ b) = b := by
  ext i hi
  simp only [secondHalf, BitVec.getElem_extractLsb', BitVec.getLsbD_append]
  rw [if_pos (by omega), Nat.zero_add]; exact BitVec.getLsbD_eq_getElem hi

theorem firstHalf_append_secondHalf {I : Inst} (b : Block I) : firstHalf b ++ secondHalf b = b := by
  ext i hi
  simp only [BitVec.getElem_append, firstHalf, secondHalf, BitVec.getElem_extractLsb']
  split
  · simp only [Nat.zero_add]; exact BitVec.getLsbD_eq_getElem hi
  · rw [show 8 * I.HB + (i - 8 * I.HB) = i by omega]; exact BitVec.getLsbD_eq_getElem hi

theorem block_ext_halves {I : Inst} {a b : Block I} (h : firstHalf a = firstHalf b) (h' : secondHalf a = secondHalf b) : a = b := by
  rw [← firstHalf_append_secondHalf a, h, h', firstHalf_append_secondHalf]

@[simp] theorem firstHalf_incrR {I : Inst} (b : Block I) : firstHalf (incrR b) = firstHalf b := firstHalf_append _ _

@[simp] theorem secondHalf_incrR {I : Inst} (b : Block I) : secondHalf (incrR b) = secondHalf b + 1 := secondHalf_append _ _

@[simp] theorem firstHalf_incrL {I : Inst} (b : Block I) : firstHalf (incrL b) = firstHalf b + 1 := firstHalf_append _ _

@[simp] theorem secondHalf_incrL {I : Inst} (b : Block I) : secondHalf (incrL b) = secondHalf b := secondHalf_append _ _

@[simp] theorem length_toBytes {I : Inst} (b : Block I) : (toBytes b).length = I.B := by simp [toBytes]

@[simp] theorem length_trunc {I : Inst} (b : Block I) (n : Nat) : (trunc b n).length = min n I.B := by simp [trunc]

@[simp] theorem length_xorBytes (a b : List Byte) : (xorBytes a b).length = min a.length b.length := by simp [xorBytes]

@[simp] theorem length_zeros (n : Nat) : (zeros n).length = n := by simp [zeros]

theorem beNat_foldl (s : List Byte) (v : Nat) :
    s.foldl (fun v b => 256 * v + b.toNat) v = v * 256 ^ s.length + beNat s := by
  induction s generalizing v with
  | nil => simp [beNat]
  | cons a s ih =>
    have h0 : beNat (a :: s) = (256 * 0 + a.toNat) * 256 ^ s.length + beNat s := ih (256 * 0 + a.toNat)
    rw [List.foldl_cons, ih (256 * v + a.toNat), h0]
    simp only [List.length_cons, pow_succ]; ring

@[simp] theorem beNat_nil : beNat [] = 0 := rfl

theorem beNat_cons (a : Byte) (s : List Byte) : beNat (a :: s) = a.toNat * 256 ^ s.length + beNat s := by
  rw [beNat, List.foldl_cons, beNat_foldl]; simp

theorem beNat_append (a b : List Byte) : beNat (a ++ b) = beNat a * 256 ^ b.length + beNat b := by
  rw [beNat, List.foldl_append, beNat_foldl]; rfl

theorem beNat_lt (s : List Byte) : beNat s < 256 ^ s.length := by
  induction s with
  | nil => simp
  | cons a s ih =>
    rw [beNat_cons, List.length_cons, pow_succ]
    have := a.isLt
    nlinarith [Nat.pos_of_ne_zero (pow_ne_zero s.length (show (256:Nat) ≠ 0 by decide))]

theorem beNat_toBytes_aux {w : Nat} (b : BitVec w) (n k : Nat) :
    beNat ((List.range n).map (fun i => b.extractLsb' (8 * (k + (n - 1 - i))) 8)) = b.toNat / 2 ^ (8 * k) % 256 ^ n := by
  induction n generalizing k with
  | zero => simp [Nat.mod_one]
  | succ n ih =>
    rw [List.range_succ, List.map_append, beNat_append]
    have h1 : (List.range n).map (fun i => b.extractLsb' (8 * (k + (n + 1 - 1 - i))) 8) =
        (List.range n).map (fun i => b.extractLsb' (8 * ((k + 1) + (n - 1 - i))) 8) := by
      apply List.map_congr_left; intro i hi; rw [List.mem_range] at hi
      rw [show k + (n + 1 - 1 - i) = (k+1) + (n - 1 - i) by omega]
    rw [h1, ih]
    simp only [List.map_cons, List.map_nil, List.length_cons, List.length_nil, beNat_cons, beNat_nil, BitVec.extractLsb'_toNat, Nat.shiftRight_eq_div_pow]
    rw [show k + (n+1-1-n) = k by omega, show 8 * (k+1) = 8*k + 8 by ring, pow_add, ← Nat.div_div_eq_div_mul]
    rw [pow_succ' 256 n, Nat.mod_mul]
    ring_nf

@[simp] theorem beNat_toBytes {I : Inst} (b : Block I) : beNat (toBytes b) = b.toNat := by
  have h := beNat_toBytes_aux b I.B 0
  simp only [Nat.zero_add, mul_zero, pow_zero, Nat.div_one] at h
  refine h.trans (Nat.mod_eq_of_lt ?_)
  have := b.isLt
  rwa [show (256 : Nat) = 2 ^ 8 by rfl, ← pow_mul, ← inst_N_eq]

@[simp] theorem ofBytes_toBytes {I : Inst} (b : Block I) : ofBytes (toBytes b) = b := by
  simp [ofBytes]

theorem toNat_ofBytes {I : Inst} {s : List Byte} (h : s.length = I.B) : (ofBytes s : Block I).toNat = beNat s := by
  rw [ofBytes, BitVec.toNat_ofNat, Nat.mod_eq_of_lt]
  have := beNat_lt s
  rwa [h, show (256 : Nat) = 2 ^ 8 by rfl, ← pow_mul, ← inst_N_eq] at this

theorem beNat_inj {s t : List Byte} (hl : s.length = t.length) (h : beNat s = beNat t) : s = t := by
  induction s generalizing t with
  | nil => exact (List.eq_nil_of_length_eq_zero hl.symm).symm
  | cons a s ih =>
    cases t with
    | nil => simp at hl
    | cons b t =>
      have hl' : s.length = t.length := by simpa using hl
      rw [beNat_cons, beNat_cons, hl'] at h
      have hs := beNat_lt s; have ht := beNat_lt t; rw [hl'] at hs
      have hp : 0 < 256 ^ t.length := by positivity
      have h1 : a.toNat = b.toNat := by
        have h2 := congrArg (· / 256 ^ t.length) h
        simp only [Nat.add_comm (_ * _), Nat.add_mul_div_right _ _ hp, Nat.div_eq_of_lt hs, Nat.div_eq_of_lt ht,
          Nat.zero_add] at h2
        exact h2
      rw [BitVec.eq_of_toNat_eq h1, ih hl' (by rw [h1] at h; omega)]

theorem toBytes_ofBytes {I : Inst} {s : List Byte} (h : s.length = I.B) : toBytes (ofBytes s : Block I) = s :=
  beNat_inj (by simp [h]) (by rw [beNat_toBytes, toNat_ofBytes h])

/-! ## The scan of GFMUL -/

@[simp] theorem gfV_zero {I : Inst} (x : Block I) : gfV x 0 = x := rfl

theorem gfV_succ {I : Inst} (x : Block I) (k : Nat) : gfV x (k + 1) = mulx (gfV x k) := rfl

@[simp] theorem gfAcc_zero {I : Inst} (x y : Block I) : gfAcc x y 0 = 0 := rfl

theorem gfAcc_succ {I : Inst} (x y : Block I) (k : Nat) :
    gfAcc x y (k + 1) = if y.getLsbD k then gfAcc x y k ^^^ gfV x k else gfAcc x y k := rfl

end Sys2Proof.Machine
end

