-- ==== Sys2Proof/Laws/PerInstr.lean ====
section
/-!
SUPPORT. The statements about every instruction as syntax, one lemma per constructor. EncodeDecodes: the word of a
well-formed instruction decodes to it, with `len` at every value of its five bits (spec/30_encoding.md R61, R69).
-/

namespace Sys2Proof.Laws.EncodeDecodes

/-- The family's statement about one instruction. -/
def Statement (i : Instr) : Prop := i.wf = true → decodeWord (encode i) = i

/-- The 32 values of `len` that a well-formed instruction can have. -/
theorem of_all {f : Nat → Instr} (hlen : ∀ n, (f n).len = n)
    (h : ∀ n : Fin 32, decodeWord (encode (f n)) = f n) (n : Nat) : Statement (f n) := by
  intro hwf
  have hn : n < 32 := by simpa [Instr.wf, hlen] using hwf
  exact h ⟨n, hn⟩

theorem nop (len : Nat) : Statement (.nop len) := of_all (f := .nop) (fun _ => rfl) (by decide) len

theorem setKey (len : Nat) : Statement (.setKey len) := of_all (f := .setKey) (fun _ => rfl) (by decide) len

theorem setIv (len : Nat) : Statement (.setIv len) := of_all (f := .setIv) (fun _ => rfl) (by decide) len

theorem update (len : Nat) : Statement (.update len) := of_all (f := .update) (fun _ => rfl) (by decide) len

theorem encrypt (len : Nat) : Statement (.encrypt len) := of_all (f := .encrypt) (fun _ => rfl) (by decide) len

theorem decrypt (len : Nat) : Statement (.decrypt len) := of_all (f := .decrypt) (fun _ => rfl) (by decide) len

theorem digest (len : Nat) : Statement (.digest len) := of_all (f := .digest) (fun _ => rfl) (by decide) len

theorem reserved (len : Nat) : Statement (.reserved len) := of_all (f := .reserved) (fun _ => rfl) (by decide) len

end Sys2Proof.Laws.EncodeDecodes
end

