-- ==== Sys2Proof/Laws/State.lean ====
section
/-!
SUPPORT. One lemma per field of the state and shared operation, true by rfl, so that no proof unfolds a record update;
one lemma per shared operation that says all it does; and what one step can do.
-/

namespace Sys2Proof.Machine

variable {I : Inst}

/-! ## emit -/

@[simp] theorem emit_Y (es : List (Event I)) (c : CoreState I) :
    (emit es c).Y = c.Y := rfl
@[simp] theorem emit_Z (es : List (Event I)) (c : CoreState I) :
    (emit es c).Z = c.Z := rfl
@[simp] theorem emit_sum (es : List (Event I)) (c : CoreState I) :
    (emit es c).sum = c.sum := rfl
@[simp] theorem emit_authSize (es : List (Event I)) (c : CoreState I) :
    (emit es c).authSize = c.authSize := rfl
@[simp] theorem emit_dataSize (es : List (Event I)) (c : CoreState I) :
    (emit es c).dataSize = c.dataSize := rfl
@[simp] theorem emit_phase (es : List (Event I)) (c : CoreState I) :
    (emit es c).phase = c.phase := rfl
@[simp] theorem emit_keyValid (es : List (Event I)) (c : CoreState I) :
    (emit es c).keyValid = c.keyValid := rfl
@[simp] theorem emit_errSticky (es : List (Event I)) (c : CoreState I) :
    (emit es c).errSticky = c.errSticky := rfl
@[simp] theorem emit_K (es : List (Event I)) (c : CoreState I) :
    (emit es c).K = c.K := rfl
@[simp] theorem emit_cmd (es : List (Event I)) (c : CoreState I) :
    (emit es c).cmd = c.cmd := rfl
@[simp] theorem emit_inbox (es : List (Event I)) (c : CoreState I) :
    (emit es c).inbox = c.inbox := rfl
@[simp] theorem emit_trace (es : List (Event I)) (c : CoreState I) :
    (emit es c).trace = c.trace ++ es := rfl

/-! ## askCipher -/

@[simp] theorem askCipher_Y (E : Cipher) (b : Block I) (c : CoreState I) :
    (askCipher E b c).Y = c.Y := rfl
@[simp] theorem askCipher_Z (E : Cipher) (b : Block I) (c : CoreState I) :
    (askCipher E b c).Z = c.Z := rfl
@[simp] theorem askCipher_sum (E : Cipher) (b : Block I) (c : CoreState I) :
    (askCipher E b c).sum = c.sum := rfl
@[simp] theorem askCipher_authSize (E : Cipher) (b : Block I) (c : CoreState I) :
    (askCipher E b c).authSize = c.authSize := rfl
@[simp] theorem askCipher_dataSize (E : Cipher) (b : Block I) (c : CoreState I) :
    (askCipher E b c).dataSize = c.dataSize := rfl
@[simp] theorem askCipher_phase (E : Cipher) (b : Block I) (c : CoreState I) :
    (askCipher E b c).phase = c.phase := rfl
@[simp] theorem askCipher_keyValid (E : Cipher) (b : Block I) (c : CoreState I) :
    (askCipher E b c).keyValid = c.keyValid := rfl
@[simp] theorem askCipher_errSticky (E : Cipher) (b : Block I) (c : CoreState I) :
    (askCipher E b c).errSticky = c.errSticky := rfl
@[simp] theorem askCipher_K (E : Cipher) (b : Block I) (c : CoreState I) :
    (askCipher E b c).K = c.K := rfl
@[simp] theorem askCipher_cmd (E : Cipher) (b : Block I) (c : CoreState I) :
    (askCipher E b c).cmd = c.cmd := rfl
@[simp] theorem askCipher_inbox (E : Cipher) (b : Block I) (c : CoreState I) :
    (askCipher E b c).inbox = c.inbox := rfl
@[simp] theorem askCipher_trace (E : Cipher) (b : Block I) (c : CoreState I) :
    (askCipher E b c).trace = c.trace ++ [.creq b, .crsp (E I c.K b)] := rfl

/-! ## respond -/

@[simp] theorem respond_Y (st : Status) (len : Nat) (data : Block I) (c : CoreState I) :
    (respond st len data c).Y = c.Y := rfl
@[simp] theorem respond_Z (st : Status) (len : Nat) (data : Block I) (c : CoreState I) :
    (respond st len data c).Z = c.Z := rfl
@[simp] theorem respond_sum (st : Status) (len : Nat) (data : Block I) (c : CoreState I) :
    (respond st len data c).sum = c.sum := rfl
@[simp] theorem respond_authSize (st : Status) (len : Nat) (data : Block I) (c : CoreState I) :
    (respond st len data c).authSize = c.authSize := rfl
@[simp] theorem respond_dataSize (st : Status) (len : Nat) (data : Block I) (c : CoreState I) :
    (respond st len data c).dataSize = c.dataSize := rfl
@[simp] theorem respond_phase (st : Status) (len : Nat) (data : Block I) (c : CoreState I) :
    (respond st len data c).phase = c.phase := rfl
@[simp] theorem respond_keyValid (st : Status) (len : Nat) (data : Block I) (c : CoreState I) :
    (respond st len data c).keyValid = c.keyValid := rfl
@[simp] theorem respond_errSticky (st : Status) (len : Nat) (data : Block I) (c : CoreState I) :
    (respond st len data c).errSticky = c.errSticky := rfl
@[simp] theorem respond_K (st : Status) (len : Nat) (data : Block I) (c : CoreState I) :
    (respond st len data c).K = c.K := rfl
@[simp] theorem respond_cmd (st : Status) (len : Nat) (data : Block I) (c : CoreState I) :
    (respond st len data c).cmd = noCmd I := rfl
@[simp] theorem respond_inbox (st : Status) (len : Nat) (data : Block I) (c : CoreState I) :
    (respond st len data c).inbox = c.inbox := rfl
@[simp] theorem respond_trace (st : Status) (len : Nat) (data : Block I) (c : CoreState I) :
    (respond st len data c).trace = c.trace ++ [.rsp ⟨rspWord st len c.phase c.keyValid c.errSticky, data⟩] := rfl

/-! ## reject -/

@[simp] theorem reject_Y (st : Status) (c : CoreState I) :
    (reject st c).Y = c.Y := rfl
@[simp] theorem reject_Z (st : Status) (c : CoreState I) :
    (reject st c).Z = c.Z := rfl
@[simp] theorem reject_sum (st : Status) (c : CoreState I) :
    (reject st c).sum = c.sum := rfl
@[simp] theorem reject_authSize (st : Status) (c : CoreState I) :
    (reject st c).authSize = c.authSize := rfl
@[simp] theorem reject_dataSize (st : Status) (c : CoreState I) :
    (reject st c).dataSize = c.dataSize := rfl
@[simp] theorem reject_phase (st : Status) (c : CoreState I) :
    (reject st c).phase = c.phase := rfl
@[simp] theorem reject_keyValid (st : Status) (c : CoreState I) :
    (reject st c).keyValid = c.keyValid := rfl
@[simp] theorem reject_errSticky (st : Status) (c : CoreState I) :
    (reject st c).errSticky = true := rfl
@[simp] theorem reject_K (st : Status) (c : CoreState I) :
    (reject st c).K = c.K := rfl
@[simp] theorem reject_cmd (st : Status) (c : CoreState I) :
    (reject st c).cmd = noCmd I := rfl
@[simp] theorem reject_inbox (st : Status) (c : CoreState I) :
    (reject st c).inbox = c.inbox := rfl
@[simp] theorem reject_trace (st : Status) (c : CoreState I) :
    (reject st c).trace = c.trace ++ [.rsp ⟨rspWord st 0 c.phase c.keyValid true, 0⟩] := rfl

/-! ## hashStep -/

@[simp] theorem hashStep_Y (E : Cipher) (b : Block I) (c : CoreState I) :
    (hashStep E b c).Y = c.Y := rfl
@[simp] theorem hashStep_Z (E : Cipher) (b : Block I) (c : CoreState I) :
    (hashStep E b c).Z = incrL c.Z := rfl
@[simp] theorem hashStep_sum (E : Cipher) (b : Block I) (c : CoreState I) :
    (hashStep E b c).sum = c.sum ^^^ gfmul (E I c.K c.Z) b := rfl
@[simp] theorem hashStep_authSize (E : Cipher) (b : Block I) (c : CoreState I) :
    (hashStep E b c).authSize = c.authSize := rfl
@[simp] theorem hashStep_dataSize (E : Cipher) (b : Block I) (c : CoreState I) :
    (hashStep E b c).dataSize = c.dataSize := rfl
@[simp] theorem hashStep_phase (E : Cipher) (b : Block I) (c : CoreState I) :
    (hashStep E b c).phase = c.phase := rfl
@[simp] theorem hashStep_keyValid (E : Cipher) (b : Block I) (c : CoreState I) :
    (hashStep E b c).keyValid = c.keyValid := rfl
@[simp] theorem hashStep_errSticky (E : Cipher) (b : Block I) (c : CoreState I) :
    (hashStep E b c).errSticky = c.errSticky := rfl
@[simp] theorem hashStep_K (E : Cipher) (b : Block I) (c : CoreState I) :
    (hashStep E b c).K = c.K := rfl
@[simp] theorem hashStep_cmd (E : Cipher) (b : Block I) (c : CoreState I) :
    (hashStep E b c).cmd = c.cmd := rfl
@[simp] theorem hashStep_inbox (E : Cipher) (b : Block I) (c : CoreState I) :
    (hashStep E b c).inbox = c.inbox := rfl
@[simp] theorem hashStep_trace (E : Cipher) (b : Block I) (c : CoreState I) :
    (hashStep E b c).trace = c.trace ++ [.creq c.Z, .crsp (E I c.K c.Z)] := rfl

/-! ## accept -/

@[simp] theorem accept_Y (m : Cmd I) (rest : List (Input I)) (c : CoreState I) :
    (accept m rest c).Y = c.Y := rfl
@[simp] theorem accept_Z (m : Cmd I) (rest : List (Input I)) (c : CoreState I) :
    (accept m rest c).Z = c.Z := rfl
@[simp] theorem accept_sum (m : Cmd I) (rest : List (Input I)) (c : CoreState I) :
    (accept m rest c).sum = c.sum := rfl
@[simp] theorem accept_authSize (m : Cmd I) (rest : List (Input I)) (c : CoreState I) :
    (accept m rest c).authSize = c.authSize := rfl
@[simp] theorem accept_dataSize (m : Cmd I) (rest : List (Input I)) (c : CoreState I) :
    (accept m rest c).dataSize = c.dataSize := rfl
@[simp] theorem accept_phase (m : Cmd I) (rest : List (Input I)) (c : CoreState I) :
    (accept m rest c).phase = c.phase := rfl
@[simp] theorem accept_keyValid (m : Cmd I) (rest : List (Input I)) (c : CoreState I) :
    (accept m rest c).keyValid = c.keyValid := rfl
@[simp] theorem accept_errSticky (m : Cmd I) (rest : List (Input I)) (c : CoreState I) :
    (accept m rest c).errSticky = c.errSticky := rfl
@[simp] theorem accept_K (m : Cmd I) (rest : List (Input I)) (c : CoreState I) :
    (accept m rest c).K = c.K := rfl
@[simp] theorem accept_cmd (m : Cmd I) (rest : List (Input I)) (c : CoreState I) :
    (accept m rest c).cmd = m := rfl
@[simp] theorem accept_inbox (m : Cmd I) (rest : List (Input I)) (c : CoreState I) :
    (accept m rest c).inbox = rest := rfl
@[simp] theorem accept_trace (m : Cmd I) (rest : List (Input I)) (c : CoreState I) :
    (accept m rest c).trace = c.trace ++ [.cmd m] := rfl

/-! ## applyReset -/

@[simp] theorem applyReset_phase (rest : List (Input I)) (c : CoreState I) :
    (applyReset rest c).phase = .uninit := rfl
@[simp] theorem applyReset_keyValid (rest : List (Input I)) (c : CoreState I) :
    (applyReset rest c).keyValid = false := rfl
@[simp] theorem applyReset_errSticky (rest : List (Input I)) (c : CoreState I) :
    (applyReset rest c).errSticky = false := rfl
@[simp] theorem applyReset_cmd (rest : List (Input I)) (c : CoreState I) :
    (applyReset rest c).cmd = noCmd I := rfl
@[simp] theorem applyReset_inbox (rest : List (Input I)) (c : CoreState I) :
    (applyReset rest c).inbox = rest := rfl
@[simp] theorem applyReset_trace (rest : List (Input I)) (c : CoreState I) :
    (applyReset rest c).trace = c.trace ++ [.reset] := rfl

/-! ## All that a shared operation does -/

/-- `Ciph(b)` changes nothing but the channels' past (R171). -/
theorem askCipher_eq (E : Cipher) (b : Block I) (c : CoreState I) :
    askCipher E b c = { c with trace := c.trace ++ [.creq b, .crsp (E I c.K b)] } := rfl

/-- A response changes no register: it completes the command (R55, R70). -/
theorem respond_eq (st : Status) (len : Nat) (data : Block I) (c : CoreState I) :
    respond st len data c = { c with
      cmd := noCmd I
      trace := c.trace ++ [.rsp ⟨rspWord st len c.phase c.keyValid c.errSticky, data⟩] } := rfl

/-- A rejection writes `err_sticky` and answers; nothing else changes (R191). -/
theorem reject_eq (st : Status) (c : CoreState I) :
    reject st c = { c with
      errSticky := true
      cmd := noCmd I
      trace := c.trace ++ [.rsp ⟨rspWord st 0 c.phase c.keyValid true, 0⟩] } := rfl

/-- A hash step writes `sum` and `Z` after one cipher call (R114). -/
theorem hashStep_eq (E : Cipher) (b : Block I) (c : CoreState I) :
    hashStep E b c = { c with
      sum := c.sum ^^^ gfmul (E I c.K c.Z) b
      Z := incrL c.Z
      trace := c.trace ++ [.creq c.Z, .crsp (E I c.K c.Z)] } := rfl

/-- Acceptance samples the command and takes it off the host's list (R51, R56). -/
theorem accept_eq (m : Cmd I) (rest : List (Input I)) (c : CoreState I) :
    accept m rest c = { c with inbox := rest, cmd := m, trace := c.trace ++ [.cmd m] } := rfl

/-- A byte count goes up by `len` modulo 2^64 (R24, R25). -/
theorem addSize_toNat (size : BitVec 64) (len : Nat) : (addSize size len).toNat = (size.toNat + len) % 2 ^ 64 := by
  simp [addSize]

/-- `Y` advances after a full block only (R21). -/
theorem nextY_full (Y : Block I) : nextY I.B Y = incrR Y := if_pos rfl

theorem nextY_partial {len : Nat} (h : len < I.B) (Y : Block I) : nextY len Y = Y := if_neg (by omega)

/-! ## The legality tables as sets of phases (R131) -/

theorem updateLegal_eq (p : Phase) : updateLegal p = decide (p ∈ [Phase.ivset, .ad]) := by cases p <;> rfl

theorem encryptLegal_eq (p : Phase) : encryptLegal p = decide (p ∈ [Phase.ivset, .ad, .enc]) := by cases p <;> rfl

theorem decryptLegal_eq (p : Phase) : decryptLegal p = decide (p ∈ [Phase.ivset, .ad, .dec]) := by cases p <;> rfl

theorem digestLegal_eq (p : Phase) : digestLegal p = decide (p ∈ [Phase.ivset, .ad, .enc, .dec]) := by cases p <;> rfl

/-! ## All that a step can do -/

theorem step_of_idle {c : CoreState I} (h : c.inbox = []) : step ⟨I, c⟩ = .next ⟨I, c⟩ := by
  simp only [step, h]

theorem step_of_reset {c : CoreState I} {rest : List (Input I)} (h : c.inbox = .reset :: rest) :
    step ⟨I, c⟩ = .next ⟨I, applyReset rest c⟩ := by
  simp only [step, h]

theorem step_of_cmd {c : CoreState I} {m : Cmd I} {rest : List (Input I)} (h : c.inbox = .cmd m :: rest) :
    step ⟨I, c⟩ = exec (decodeWord m.word) ⟨I, accept m rest c⟩ := by
  simp only [step, h]

/-- Every step is an idle step, the reset input, or one command (R58, R220). -/
theorem step_cases (c : CoreState I) :
    (c.inbox = [] ∧ step ⟨I, c⟩ = .next ⟨I, c⟩) ∨
    (∃ rest, c.inbox = .reset :: rest ∧ step ⟨I, c⟩ = .next ⟨I, applyReset rest c⟩) ∨
    (∃ m rest, c.inbox = .cmd m :: rest ∧ step ⟨I, c⟩ = exec (decodeWord m.word) ⟨I, accept m rest c⟩) := by
  rcases h : c.inbox with _ | ⟨_ | _, rest⟩
  · exact .inl ⟨rfl, step_of_idle h⟩
  · exact .inr (.inr ⟨_, _, rfl, step_of_cmd h⟩)
  · exact .inr (.inl ⟨_, rfl, step_of_reset h⟩)

end Sys2Proof.Machine
end

