-- ==== Sys2Proof/Tests/Slice0.lean ====
section
/-!
SUPPORT. The model's own tests. Every expected value is the spec's (spec/30_encoding.md sections 2 to 7,
spec/95_test_vectors.md sections 2 to 5, spec/96_test_programs.md), written out by hand; and for every statement with
hypotheses a concrete input that meets them.
-/

namespace Sys2Proof.Tests

open Sys2Proof.Machine

/-! ## Syntax and decoding -/

theorem test_wf_refuses_long_len :
    [Instr.nop 32, .setKey 32, .setIv 32, .update 32, .encrypt 32, .decrypt 32, .digest 32, .reserved 32].all
      (fun i => !i.wf) = true := by decide

theorem test_wf_accepts_every_len_of_five_bits :
    [Instr.nop 31, .setKey 31, .setIv 31, .update 31, .encrypt 31, .decrypt 31, .digest 31, .reserved 31,
     .update 0].all Instr.wf = true := by decide

/-- The words bit by bit, `len` in bits 7:3 and `op` in bits 2:0 (R61, and the worked encodings of R80). -/
theorem test_decode_words :
    decodeWord 0b11111_000 = .nop 31 ∧ decodeWord 0b00000_001 = .setKey 0 ∧ decodeWord 0b10000_010 = .setIv 16 ∧
    decodeWord 0b01000_010 = .setIv 8 ∧ decodeWord 0b01001_011 = .update 9 ∧ decodeWord 0b00011_100 = .encrypt 3 ∧
    decodeWord 0b00011_101 = .decrypt 3 ∧ decodeWord 0b01000_110 = .digest 8 ∧ decodeWord 0b00000_111 = .reserved 0 := by
  decide

theorem test_encode_words :
    encode (.nop 31) = 0xF8 ∧ encode (.setKey 0) = 0x01 ∧ encode (.setIv 16) = 0x82 ∧ encode (.update 9) = 0x4B ∧
    encode (.encrypt 3) = 0x1C ∧ encode (.decrypt 3) = 0x1D ∧ encode (.digest 8) = 0x46 ∧ encode (.reserved 0) = 0x07 := by
  decide

theorem test_decode_table_word :
    decodeTableWord 8 0xF8 = some (.nop 31) ∧ decodeTableWord 8 0x84 = some (.encrypt 16) ∧
    decodeTableWord 8 0xFF = some (.reserved 31) := by
  decide

/-! ## The primitives (spec/95_test_vectors.md section 4) -/

theorem test_pad :
    pad [0xEA, 5, 5, 5, 5, 5, 5, 5, 5] = (0xEA050505050505050500000000000000 : Block .mgm) ∧
    pad [0xEA] = (0xEA00000000000000 : Block .mgm64) := by
  decide

theorem test_trunc :
    trunc (0xCF5D656F40C34F5C46E8BB0E29FCDB4C : Block .mgm) 4 = [0xCF, 0x5D, 0x65, 0x6F] ∧
    trunc (0xA7928069AA10FD10 : Block .mgm64) 0 = [] := by
  decide

theorem test_discrim :
    discrimY (0x92DEF06B3C130A59 : Block .mgm64) = 0x12DEF06B3C130A59 ∧
    discrimZ (0x1122334455667700FFEEDDCCBBAA9988 : Block .mgm) = 0x9122334455667700FFEEDDCCBBAA9988 := by
  decide

theorem test_trailer :
    (trailer 41 67 : Block .mgm) = 0x00000000000001480000000000000218 ∧
    (trailer 41 67 : Block .mgm64) = 0x0000014800000218 ∧
    (trailer (BitVec.ofNat 64 (2 ^ 61)) (BitVec.ofNat 64 (2 ^ 61 + 1)) : Block .mgm) = 8 ∧
    (trailer (BitVec.ofNat 64 (2 ^ 29)) 1 : Block .mgm64) = 8 := by
  decide

theorem test_mulx :
    mulx (0xC0000000000000000000000000000043 : Block .mgm) = 0x80000000000000000000000000000001 ∧
    mulx (0x00000000000000FF8000000000000000 : Block .mgm) = 0x00000000000001FF0000000000000000 ∧
    mulx (0xC000000000000043 : Block .mgm64) = 0x800000000000009D := by
  decide

theorem test_increments :
    incrR (0x0000000000000000FFFFFFFFFFFFFFFF : Block .mgm) = 0 ∧
    incrL (0xFFFFFFFFFFFFFFFF0000000000000000 : Block .mgm) = 0 ∧
    incrL (0x7FC245A8586E6602A7BBDB2786BDC66F : Block .mgm) = 0x7FC245A8586E6603A7BBDB2786BDC66F ∧
    incrR (0x000000FF000000FF : Block .mgm64) = 0x000000FF00000100 ∧
    incrL (0x000000FF000000FF : Block .mgm64) = 0x00000100000000FF := by
  decide

theorem test_gfmul :
    gfmul (0x8DB187D653830EA4BC446476952C300B : Block .mgm) 0x02020202020202020101010101010101 =
      0x4CF427F4ADB75CF4C0DA39D5AB48CF38 := by
  decide +kernel

theorem test_gfmul_64 : gfmul (0x8000000000000001 : Block .mgm64) 0x103 = 0x8000000000000C98 := by
  decide +kernel

/-! ## One command on a core -/

/-- `TOY_B` of spec/95_test_vectors.md section 5: rotate left by one byte, then exclusive or with the first key bytes. -/
def toy : Cipher := fun I k b =>
  ofBytes ((List.range I.B).map fun i => byteAt b ((i + 1) % I.B) ^^^ k.extractLsb' (8 * (31 - i)) 8)

/-- The key of spec/96_test_programs.md. -/
def toyKey : Key := 0x000102030405060708090A0B0C0D0E0F101112131415161718191A1B1C1D1E1F

/-- A core with the toy key loaded, in `phase`, about to execute a command with operand `data`. -/
def coreIn (I : Inst) (p : Phase) (err : Bool) (y z u : Block I) (a d : BitVec 64) (data : Block I) : CoreState I :=
  { CoreState.reset I with
    Y := y, Z := z, sum := u, authSize := a, dataSize := d, phase := p, keyValid := true, errSticky := err,
    K := toyKey, cmd := ⟨0, data, 0⟩ }

/-- What the spec's tables give after a command: `Y`, `Z`, `sum`, the counts, and the transactions. -/
def after {I : Inst} (c : CoreState I) :
    Block I × Block I × Block I × BitVec 64 × BitVec 64 × List (Event I) :=
  (c.Y, c.Z, c.sum, c.authSize, c.dataSize, c.trace)

/-- P4 row 11. -/
theorem test_nop :
    nopCmd 31 (coreIn .mgm .ad true 1 2 3 5 0 0) =
      { coreIn .mgm .ad true 1 2 3 5 0 0 with cmd := noCmd .mgm, trace := [.rsp ⟨0x3400, 0⟩] } := by
  decide

/-- Section 2.2 row 1: the key reaches CKEY and `K`. -/
theorem test_set_key :
    setKeyCmd 0 { CoreState.reset .mgm with cmd := ⟨1, 0, toyKey⟩ } =
      { CoreState.reset .mgm with K := toyKey, keyValid := true, trace := [.ckey toyKey, .rsp ⟨0x1000, 0⟩] } := by
  decide

/-- P4 row 3: `len` 3. -/
theorem test_set_key_len :
    setKeyCmd 3 { CoreState.reset .mgm with cmd := ⟨0x19, 0, toyKey⟩ } =
      { CoreState.reset .mgm with errSticky := true, trace := [.rsp ⟨0x2002, 0⟩] } := by
  decide

/-- P3 row 2, from a session that an error has marked. -/
theorem test_set_iv :
    setIvCmd toy 8 (coreIn .mgm64 .done true 1 2 3 5 6 0x8123456789ABCDEF) =
      { coreIn .mgm64 .ivset false 0x2344658AAFC8E906 0x2344658AAFC8E986 0 0 0 0 with
        trace := [.creq 0x0123456789ABCDEF, .crsp 0x2344658AAFC8E906, .creq 0x8123456789ABCDEF,
          .crsp 0x2344658AAFC8E986, .rsp ⟨0x1200, 0⟩] } := by
  decide +kernel

/-- P4 row 2. -/
theorem test_set_iv_no_key :
    setIvCmd toy 16 { CoreState.reset .mgm with errSticky := true, cmd := ⟨0x82, 0xF0E1D2C3B4A5968778695A4B3C2D1E0F, 0⟩ } =
      { CoreState.reset .mgm with errSticky := true, trace := [.rsp ⟨0x2003, 0⟩] } := by
  decide

/-- P1 row 4, a partial block; the bytes beyond the operand are not read. -/
theorem test_update :
    after (updateCmd toy 5 (coreIn .mgm .ad false 0xE1D3C1B7A193817F615341372113017F 0xE1D3C1B7A193818061534137211301FF
        0x99C1AB970209C2EF3B0A095CA0C04534 16 0 0xB0B1B2B3B4FFFFFFFFFFFFFFFFFFFFFF)) =
      (0xE1D3C1B7A193817F615341372113017F, 0xE1D3C1B7A193818161534137211301FF, 0x4ACF86A01CE6CB5EEC8CA0A6EE19A31D, 21, 0,
       [.creq 0xE1D3C1B7A193818061534137211301FF, .crsp 0xD3C0B5A2978486665B483D2A1F0CF1EE, .rsp ⟨0x1400, 0⟩]) := by
  decide +kernel

/-- P4 row 10. -/
theorem test_update_align :
    updateCmd toy 16 (coreIn .mgm .ad true 1 2 3 5 0 0) =
      { coreIn .mgm .ad true 1 2 3 5 0 0 with cmd := noCmd .mgm, trace := [.rsp ⟨0x3405, 0⟩] } := by
  decide

/-- P3 row 4, a full block. -/
theorem test_encrypt :
    after (encryptCmd toy 8 (coreIn .mgm64 .enc false 0x2344658AAFC8E907 0x2344658BAFC8E986 0x4560C08E183E376D 0 8
        0x2222222222222222)) =
      (0x2344658AAFC8E908, 0x2344658CAFC8E986, 0x8BD2DE131BB97D05, 0, 16,
       [.creq 0x2344658AAFC8E907, .crsp 0x446488ACCCEC0124, .creq 0x2344658BAFC8E986, .crsp 0x446489ACCCEC8024,
        .rsp ⟨0x1680, 0x6646AA8EEECE2306⟩]) := by
  decide +kernel

/-- P1 row 6, a partial block: `Y` stays. -/
theorem test_encrypt_partial :
    after (encryptCmd toy 3 (coreIn .mgm .enc false 0xE1D3C1B7A193817F6153413721130180 0xE1D3C1B7A193818261534137211301FF
        0xDA51001A5EF74E544BD3BB8E11F8BA59 21 16 0x010203FFFFFFFFFFFFFFFFFFFFFFFFFF)) =
      (0xE1D3C1B7A193817F6153413721130180, 0xE1D3C1B7A193818361534137211301FF, 0x5443DFCD9D8EE304AFF0FC59D2A73869, 21, 19,
       [.creq 0xE1D3C1B7A193817F6153413721130180, .crsp 0xD3C0B5A2978479665B483D2A1F0C8EEE,
        .creq 0xE1D3C1B7A193818261534137211301FF, .crsp 0xD3C0B5A2978484665B483D2A1F0CF1EE,
        .rsp ⟨0x1630, 0xD2C2B600000000000000000000000000⟩]) := by
  decide +kernel

/-- P2 row 5: the hash request comes before the keystream request. -/
theorem test_decrypt :
    after (decryptCmd toy 16 (coreIn .mgm .ad false 0xE1D3C1B7A193817F615341372113017F 0xE1D3C1B7A193818161534137211301FF
        0x4ACF86A01CE6CB5EEC8CA0A6EE19A31D 21 0 0xD3D19791D3D11F11D3D19791D3D19F11)) =
      (0xE1D3C1B7A193817F6153413721130180, 0xE1D3C1B7A193818261534137211301FF, 0xDA51001A5EF74E544BD3BB8E11F8BA59, 21, 16,
       [.creq 0xE1D3C1B7A193818161534137211301FF, .crsp 0xD3C0B5A2978487665B483D2A1F0CF1EE,
        .creq 0xE1D3C1B7A193817F615341372113017F, .crsp 0xD3C0B5A2978479665B483D2A1F0C71EE,
        .rsp ⟨0x1900, 0x00112233445566778899AABBCCDDEEFF⟩]) := by
  decide +kernel

/-- P4 row 14. -/
theorem test_decrypt_phase :
    decryptCmd toy 16 (coreIn .mgm .enc true 1 2 3 5 16 0) =
      { coreIn .mgm .enc true 1 2 3 5 16 0 with cmd := noCmd .mgm, trace := [.rsp ⟨0x3604, 0⟩] } := by
  decide

/-- P2 row 7: eight bytes are returned, `sum` holds the whole tag block. -/
theorem test_digest :
    after (digestCmd toy 8 (coreIn .mgm .dec false 0xE1D3C1B7A193817F6153413721130180 0xE1D3C1B7A193818361534137211301FF
        0x5443DFCD9D8EE304AFF0FC59D2A73869 21 19 0)) =
      (0xE1D3C1B7A193817F6153413721130180, 0xE1D3C1B7A193818461534137211301FF, 0x4F21A507255600553D254A84A387F50E, 21, 19,
       [.creq 0xE1D3C1B7A193818361534137211301FF, .crsp 0xD3C0B5A2978485665B483D2A1F0CF1EE,
        .creq 0x014F20A70421530652352C408FAF8AFB, .crsp 0x4F21A507255600553D254A84A387F50E,
        .rsp ⟨0x1A80, 0x4F21A507255600550000000000000000⟩]) := by
  decide +kernel

/-- The two cipher pairs of section 3.2 row 18 (Magma), zero elsewhere. -/
def magmaRow18 : Cipher := fun I _ b =>
  if b.toNat = 0x2B073F1394F372A0 then BitVec.ofNat I.N 0x8311B6024AA966C1
  else if b.toNat = 0x73CEF44BAE6BDB61 then BitVec.ofNat I.N 0xA7928069AA10FD10
  else 0

/-- Section 3.2 row 18: the tag the source prints. -/
theorem test_digest_magma :
    after (digestCmd magmaRow18 8
        (coreIn .mgm64 .enc false 0x5623890162DE31C7 0x2B073F1394F372A0 0x2F40690AEB53F539 41 67 0)) =
      (0x5623890162DE31C7, 0x2B073F1494F372A0, 0xA7928069AA10FD10, 41, 67,
       [.creq 0x2B073F1394F372A0, .crsp 0x8311B6024AA966C1, .creq 0x73CEF44BAE6BDB61, .crsp 0xA7928069AA10FD10,
        .rsp ⟨0x1A80, 0xA7928069AA10FD10⟩]) := by
  decide +kernel

/-- P4 row 6. -/
theorem test_reserved :
    reservedCmd 0 (coreIn .mgm .uninit true 1 2 3 5 16 0) =
      { coreIn .mgm .uninit true 1 2 3 5 16 0 with cmd := noCmd .mgm, trace := [.rsp ⟨0x3001, 0⟩] } := by
  decide

/-- The word placed at reset is the first command the core accepts; P4 row 1's answer. -/
theorem test_first_command_after_reset :
    step (State.reset.withFetchWord 8 0x83) =
      .next ⟨.mgm, { CoreState.reset .mgm with errSticky := true, trace := [.cmd ⟨0x83, 0, 0⟩, .rsp ⟨0x2004, 0⟩] }⟩ := rfl

/-- The `seal` call's words for 41 bytes of associated data and 67 bytes of text: program P5 (R151 to R153). -/
theorem test_seal_words :
    (sealCall (I := .mgm) 0 0 (zeros 41) (zeros 67) 16).map (fun a => (assemble a).word) =
      [0x01, 0x82, 0x83, 0x83, 0x4B, 0x84, 0x84, 0x84, 0x84, 0x1C, 0x86] := by
  decide +kernel

/-! ## Inputs that meet the statements' hypotheses -/

/-- A core with a key, in `p`, with the two counts. -/
def live (I : Inst) (p : Phase) (a d : BitVec 64) : CoreState I := coreIn I p false 0 0 0 a d 0

theorem witness_EncodedInstructionDecodesToItself :
    (Instr.update 0).wf = true ∧ (Instr.reserved 31).wf = true := by decide

theorem witness_CommandWordIsOpAndLen : (Instr.nop 0).wf = true ∧ (Instr.digest 31).wf = true := by decide

/-- Every clause of the table, at the least and the greatest word of its pattern. -/
theorem witness_WordsMatchTheCommandTable :
    ∀ op : Fin 8, (BitVec.ofNat 8 op &&& 0x07 = BitVec.ofNat 8 op) ∧
      (BitVec.ofNat 8 (0xF8 + op) &&& 0x07 = BitVec.ofNat 8 op) := by decide

theorem witness_CountsOfLegalAndRejectedWords :
    (0x03 : BitVec 8) &&& 0x07 = 0xFB &&& 0x07 ∧ (3 : BitVec 3) ∈ [(3 : BitVec 3), 4, 5, 6] ∧
      (6 : BitVec 3) ∈ [(3 : BitVec 3), 4, 5, 6] := by decide

theorem witness_ResponseWordFields : 0 < 32 ∧ 31 < 32 := by decide

theorem witness_StepRunsTheDecodedCommand :
    (present [.setIv (I := .mgm64) 5] (live .mgm64 .done 3 9)).core.inbox = [.cmd ⟨0x42, 5, 0⟩] ∧
      decodeWord 0x42 = .setIv 8 ∧ (Instr.setIv 8).wf = true := by decide

theorem witness_IdleCoreHoldsItsState : State.reset.core.inbox = [] ∧ (live .mgm64 .enc 3 9).inbox = [] := by decide

theorem witness_ResetInputClearsTheFlags :
    ({ live .mgm64 .enc 3 9 with errSticky := true, inbox := [.reset, .cmd ⟨1, 0, 0⟩] } : CoreState .mgm64).inbox =
      .reset :: [.cmd ⟨1, 0, 0⟩] := by decide

theorem witness_SetKeyLoadsTheKeyAndEndsTheSession : (1 : Nat) ≠ 0 ∧ (31 : Nat) ≠ 0 ∧ (0 : Nat) = 0 := by decide

theorem witness_SetIvStartsASession :
    (15 ≠ Inst.mgm.B ∧ 17 ≠ Inst.mgm.B ∧ 7 ≠ Inst.mgm64.B ∧ 9 ≠ Inst.mgm64.B) ∧
    (16 = Inst.mgm.B ∧ (CoreState.reset .mgm).keyValid = false) ∧
    (8 = Inst.mgm64.B ∧ (CoreState.reset .mgm64).keyValid = false) ∧
    (16 = Inst.mgm.B ∧ (live .mgm .uninit 0 0).keyValid = true) ∧
    (8 = Inst.mgm64.B ∧ (live .mgm64 .done 1 1).keyValid = true) := by decide

theorem witness_UpdateAbsorbsOneBlock :
    (Inst.mgm.B < 17 ∧ Inst.mgm64.B < 9) ∧
    (0 ≤ Inst.mgm.B ∧ 16 ≤ Inst.mgm.B ∧ 8 ≤ Inst.mgm64.B ∧ (live .mgm .uninit 0 0).phase ∉ [Phase.ivset, .ad] ∧
      (live .mgm64 .done 0 0).phase ∉ [Phase.ivset, .ad]) ∧
    ((live .mgm .ad 1 0).phase ∈ [Phase.ivset, .ad] ∧ (live .mgm .ad 1 0).authSize.toNat % Inst.mgm.B ≠ 0 ∧
      (live .mgm64 .ad 15 0).authSize.toNat % Inst.mgm64.B ≠ 0) ∧
    (0 = 0 ∧ 1 ≤ 1 ∧ 1 ≤ Inst.mgm.B ∧ 16 ≤ Inst.mgm.B ∧ 8 ≤ Inst.mgm64.B ∧ (live .mgm .ivset 0 0).phase ∈ [Phase.ivset, .ad] ∧
      (live .mgm .ivset 0 0).authSize.toNat % Inst.mgm.B = 0 ∧ (live .mgm64 .ad 8 0).phase ∈ [Phase.ivset, .ad] ∧
      (live .mgm64 .ad 8 0).authSize.toNat % Inst.mgm64.B = 0) := by decide

theorem witness_EncryptAbsorbsTheCiphertextItReturns :
    (Inst.mgm.B < 17 ∧ Inst.mgm64.B < 9) ∧
    (16 ≤ Inst.mgm.B ∧ 8 ≤ Inst.mgm64.B ∧ (live .mgm .uninit 0 0).phase ∉ [Phase.ivset, .ad, .enc] ∧
      (live .mgm64 .dec 0 8).phase ∉ [Phase.ivset, .ad, .enc]) ∧
    ((live .mgm .enc 0 1).phase ∈ [Phase.ivset, .ad, .enc] ∧ (live .mgm .enc 0 1).dataSize.toNat % Inst.mgm.B ≠ 0 ∧
      (live .mgm64 .enc 0 15).dataSize.toNat % Inst.mgm64.B ≠ 0) ∧
    (0 = 0 ∧ 1 ≤ 1 ∧ 1 ≤ Inst.mgm.B ∧ 16 ≤ Inst.mgm.B ∧ 8 ≤ Inst.mgm64.B ∧
      (live .mgm .ivset 0 0).phase ∈ [Phase.ivset, .ad, .enc] ∧ (live .mgm .ad 5 0).phase ∈ [Phase.ivset, .ad, .enc] ∧
      (live .mgm64 .enc 5 8).phase ∈ [Phase.ivset, .ad, .enc] ∧ (live .mgm64 .enc 5 8).dataSize.toNat % Inst.mgm64.B = 0) := by
  decide

theorem witness_DecryptAbsorbsTheCiphertextItIsGiven :
    (Inst.mgm.B < 17 ∧ Inst.mgm64.B < 9) ∧
    (16 ≤ Inst.mgm.B ∧ 8 ≤ Inst.mgm64.B ∧ (live .mgm .uninit 0 0).phase ∉ [Phase.ivset, .ad, .dec] ∧
      (live .mgm64 .enc 0 8).phase ∉ [Phase.ivset, .ad, .dec]) ∧
    ((live .mgm .dec 0 1).phase ∈ [Phase.ivset, .ad, .dec] ∧ (live .mgm .dec 0 1).dataSize.toNat % Inst.mgm.B ≠ 0 ∧
      (live .mgm64 .dec 0 15).dataSize.toNat % Inst.mgm64.B ≠ 0) ∧
    (0 = 0 ∧ 1 ≤ 1 ∧ 1 ≤ Inst.mgm.B ∧ 16 ≤ Inst.mgm.B ∧ 8 ≤ Inst.mgm64.B ∧
      (live .mgm .ivset 0 0).phase ∈ [Phase.ivset, .ad, .dec] ∧ (live .mgm .ad 5 0).phase ∈ [Phase.ivset, .ad, .dec] ∧
      (live .mgm64 .dec 5 8).phase ∈ [Phase.ivset, .ad, .dec] ∧ (live .mgm64 .dec 5 8).dataSize.toNat % Inst.mgm64.B = 0) := by
  decide

theorem witness_DigestReturnsTheTag :
    (Inst.mgm.B < 17 ∧ Inst.mgm64.B < 9) ∧
    (0 ≤ Inst.mgm.B ∧ 16 ≤ Inst.mgm.B ∧ (live .mgm .uninit 0 0).phase ∉ [Phase.ivset, .ad, .enc, .dec] ∧
      (live .mgm64 .done 0 8).phase ∉ [Phase.ivset, .ad, .enc, .dec]) ∧
    (0 ≤ Inst.mgm.B ∧ 16 ≤ Inst.mgm.B ∧ 8 ≤ Inst.mgm64.B ∧ (live .mgm .ivset 0 0).phase ∈ [Phase.ivset, .ad, .enc, .dec] ∧
      (live .mgm64 .dec 41 67).phase ∈ [Phase.ivset, .ad, .enc, .dec]) := by decide

theorem witness_ZeroLengthDataCommandsChangeNothing :
    verdict (live .mgm .ivset 0 0) (.update 0) = .ok ∧ verdict (live .mgm .enc 5 16) (.encrypt 0) = .ok ∧
      verdict (live .mgm64 .dec 5 8) (.decrypt 0) = .ok := by decide

/-- Each code, and for each neighbouring pair of checks a command that fails both (R197). -/
theorem witness_FirstFailingCheckRejectsTheCommand :
    verdict (CoreState.reset .mgm) (.reserved 31) = .errOp ∧ verdict (live .mgm .ivset 0 0) (.setKey 1) = .errLen ∧
    verdict (CoreState.reset .mgm) (.setIv 15) = .errLen ∧ verdict (CoreState.reset .mgm64) (.setIv 8) = .errNokey ∧
    verdict (CoreState.reset .mgm64) (.update 9) = .errLen ∧ verdict (live .mgm64 .enc 3 8) (.update 8) = .errPhase ∧
    verdict (live .mgm .enc 0 3) (.decrypt 1) = .errPhase ∧ verdict (live .mgm .enc 0 3) (.encrypt 0) = .errAlign ∧
    verdict (live .mgm .done 0 3) (.digest 0) = .errPhase ∧ verdict (live .mgm .ad 5 0) (.nop 31) = .ok := by decide

theorem witness_AcceptedCommandsFollowTheTrafficTable :
    verdict (CoreState.reset .mgm) (.nop 31) = .ok ∧ verdict (CoreState.reset .mgm) (.setKey 0) = .ok ∧
    verdict (live .mgm .done 3 3) (.setIv 16) = .ok ∧ verdict (live .mgm .ad 16 0) (.update 16) = .ok ∧
    verdict (live .mgm .ad 3 0) (.encrypt 1) = .ok ∧ verdict (live .mgm64 .dec 3 8) (.decrypt 8) = .ok ∧
    verdict (live .mgm64 .dec 3 3) (.digest 0) = .ok := by decide

theorem witness_OneResponsePerCommand :
    (present [.encrypt (I := .mgm) [1, 2, 3]] (live .mgm .ad 3 0)).core.inbox =
      .cmd ⟨0x1C, 0x01020300000000000000000000000000, 0⟩ :: [] := by decide

theorem witness_KeyIsWrittenBySetKeyAlone :
    (CoreState.reset .mgm).keyValid = false ∧
    ({ live .mgm .enc 0 0 with inbox := [.reset] } : CoreState .mgm).inbox = .reset :: [] ∧
    ({ live .mgm .enc 0 0 with inbox := [.cmd ⟨0x01, 0, toyKey⟩] } : CoreState .mgm).inbox = .cmd ⟨0x01, 0, toyKey⟩ :: [] ∧
    decodeWord 0x01 = .setKey 0 ∧ decodeWord 0x09 ≠ .setKey 0 ∧ decodeWord 0x82 ≠ .setKey 0 := by decide

theorem witness_ErrStickyIsSetByRejectionsAlone :
    ({ live .mgm .enc 0 0 with inbox := [.reset] } : CoreState .mgm).inbox = .reset :: [] ∧
    verdict (live .mgm .enc 0 0) (.update 0) ≠ .ok ∧
    (verdict (live .mgm .enc 0 0) (.setIv 16) = .ok ∧ opcode (.setIv 16) = 2) ∧
    (verdict (live .mgm .enc 0 0) (.setKey 0) = .ok ∧ opcode (.setKey 0) ≠ 2) := by decide

theorem witness_RegistersAreWrittenOnlyByTheirWriters :
    opcode (.digest 16) ∉ [(2 : BitVec 3), 4, 5] ∧ opcode (.setKey 0) ∉ [(2 : BitVec 3), 3, 4, 5, 6] ∧
    opcode (.encrypt 1) ∉ [(2 : BitVec 3), 3] ∧ opcode (.update 1) ∉ [(2 : BitVec 3), 4, 5] ∧ opcode (.setIv 16) ≠ 1 ∧
    (verdict (live .mgm .enc 0 0) (.setKey 0) = .ok ∧ opcode (.setKey 0) ≠ 2) ∧ opcode (.nop 0) ∉ [(1 : BitVec 3), 2, 3, 4, 5, 6] ∧ opcode (.reserved 0) ∉ [(1 : BitVec 3), 2, 3, 4, 5, 6] := by decide

theorem witness_SessionKeepsHalfOfEachCounter : opcode (.encrypt 16) ≠ 2 ∧ opcode (.digest 0) ≠ 2 := by decide

/-- Two operands that differ in the lanes a command does not read, one pair for each form. -/
theorem witness_UnusedCommandLanesAreIgnored :
    (⟨0, 1, toyKey⟩ : Cmd .mgm).key = (⟨7, 2, toyKey⟩ : Cmd .mgm).key ∧
    (0x0123456789ABCDEF : Block .mgm64) ||| discrimBit .mgm64 = 0x8123456789ABCDEF ||| discrimBit .mgm64 ∧
    trunc (0x0102030000000000 : Block .mgm64) 3 = trunc (0x010203FFFFFFFFFF : Block .mgm64) 3 ∧
    trunc (0 : Block .mgm) 0 = trunc (BitVec.allOnes _ : Block .mgm) 0 ∧
    trunc (5 : Block .mgm) 16 = trunc (5 : Block .mgm) 16 := by decide

/-- A core in a session, its key known to the cipher, with one command presented. -/
def sessionWith (I : Inst) (i : Input I) : CoreState I :=
  { live I .ivset 0 0 with
    cmd := noCmd I
    inbox := [i]
    trace := [.cmd ⟨0x01, 0, toyKey⟩, .ckey toyKey, .rsp ⟨0x1000, 0⟩] }

theorem sessionWith_safe : ∀ I : Inst, State.Safe ⟨I, sessionWith I (.cmd ⟨0x86, 0, 0⟩)⟩
  | .mgm => ⟨by constructor <;> decide, by unfold CoreState.ChannelsOk; decide⟩
  | .mgm64 => ⟨by constructor <;> decide, by unfold CoreState.ChannelsOk; decide⟩

theorem witness_EveryStepKeepsTheSessionInvariant :
    ∃ s t : State, s.inst = .mgm ∧ s.core.phase = .ivset ∧ s.core.inbox ≠ [] ∧ s.Inv ∧ step s = .next t :=
  ⟨_, _, rfl, rfl, by decide, (sessionWith_safe .mgm).1, rfl⟩

theorem witness_EveryStepKeepsTheChannelProtocol :
    ∃ s t : State, s.inst = .mgm64 ∧ s.core.phase = .ivset ∧ s.core.inbox ≠ [] ∧ s.Safe ∧ step s = .next t :=
  ⟨_, _, rfl, rfl, by decide, sessionWith_safe .mgm64, rfl⟩

/-- The same core after a SET_KEY ended its session, and one with other values in the dead registers. -/
theorem witness_DeadRegistersCannotBeObserved :
    ((live .mgm .uninit 3 9).phase ≠ .uninit → (live .mgm .uninit 3 9).keyValid = true) ∧
      SameVisible (live .mgm .uninit 3 9) { live .mgm .uninit 0 0 with Y := 1, Z := 2, sum := 3 } := by
  refine ⟨by decide, ?_⟩
  constructor <;> decide

theorem witness_DiscriminatorBitOfTheNonce :
    (0x0123456789ABCDEF : Block .mgm64) ||| discrimBit .mgm64 = 0x8123456789ABCDEF ||| discrimBit .mgm64 := by decide

theorem witness_PadAndTruncateOnBytes :
    ([] : List Byte).length ≤ Inst.mgm.B ∧ (zeros 16).length ≤ Inst.mgm.B ∧ (zeros 8).length ≤ Inst.mgm64.B := by decide

/-- Both ends of `len`, and a command whose operand is the bytes an ENCRYPT returned, whatever they are. -/
theorem witness_DecryptInvertsEncrypt :
    ((live .mgm .ivset 0 0).phase ∈ [Phase.ivset, .ad] ∧ (live .mgm .ivset 0 0).dataSize.toNat % Inst.mgm.B = 0 ∧
      (live .mgm64 .ad 3 0).phase ∈ [Phase.ivset, .ad] ∧ (live .mgm64 .ad 3 0).dataSize.toNat % Inst.mgm64.B = 0 ∧
      1 ≤ 1 ∧ 1 ≤ Inst.mgm.B ∧ 16 ≤ Inst.mgm.B ∧ 8 ≤ Inst.mgm64.B) ∧
    (∀ a : Byte, ∃ m' : Cmd .mgm64, trunc m'.data 1 = [a]) ∧
    (∀ (I : Inst) (s : List Byte), s.length = I.B → ∃ m' : Cmd I, trunc m'.data I.B = s) := by
  refine ⟨by decide, fun a => ⟨⟨0, a ++ (0 : BitVec 56), 0⟩, ?_⟩, fun I s h => ⟨⟨0, ofBytes s, 0⟩, ?_⟩⟩
  · change [(a ++ (0 : BitVec 56)).extractLsb' 56 8] = [a]
    congr 1
    ext i hi
    rw [BitVec.getElem_extractLsb', BitVec.getLsbD_append, if_neg (by omega), Nat.add_sub_cancel_left]
    exact BitVec.getLsbD_eq_getElem hi
  · change (toBytes (ofBytes s)).take I.B = s
    rw [toBytes_ofBytes h, List.take_of_length_le h.le]

theorem witness_ShorterTagIsAPrefix :
    digestLegal (live .mgm .ivset 0 0).phase = true ∧ digestLegal (live .mgm64 .dec 5 8).phase = true ∧
      0 ≤ 16 ∧ 16 ≤ 16 ∧ 16 ≤ Inst.mgm.B ∧ 4 ≤ 8 ∧ 8 ≤ Inst.mgm64.B := by decide

theorem witness_UpdateCallHasItsClosedForm :
    (live .mgm .ivset 0 0).phase ∈ [Phase.ivset, .ad] ∧ (live .mgm .ivset 0 0).authSize.toNat % Inst.mgm.B = 0 ∧
      (live .mgm64 .ad 8 0).phase ∈ [Phase.ivset, .ad] ∧ (live .mgm64 .ad 8 0).authSize.toNat % Inst.mgm64.B = 0 := by
  decide

theorem witness_SealReturnsTheClosedForm : 0 ≤ Inst.mgm.B ∧ 16 ≤ Inst.mgm.B ∧ 8 ≤ Inst.mgm64.B := by decide

theorem witness_OpenAfterSealGivesBackThePlaintext : 0 ≤ Inst.mgm.B ∧ 16 ≤ Inst.mgm.B ∧ 8 ≤ Inst.mgm64.B := by decide

theorem witness_EmptyMessageTagIgnoresTheNonce : 0 ≤ Inst.mgm.B ∧ 16 ≤ Inst.mgm.B ∧ 8 ≤ Inst.mgm64.B := by decide

end Sys2Proof.Tests
end

section
/-!
SUPPORT. One command, whichever it is: what its checks decide (spec/60_exceptions.md R197), the work of an accepted
command (spec/42_mgm_commands.md R135 to R142, spec/43_cipher_wrapper.md R175) and what each command writes
(spec/10_state.md R20). `exec_eq` ties all of it to the machine, so later proofs do not unfold a command.
-/

namespace Sys2Proof.Machine

variable {I : Inst}

/-! ## The verdict of each operation's checks -/

theorem verdict_nop (c : CoreState I) (n : Nat) : verdict c (.nop n) = .ok := rfl

theorem verdict_reserved (c : CoreState I) (n : Nat) : verdict c (.reserved n) = .errOp := rfl

theorem verdict_setKey (c : CoreState I) (n : Nat) :
    verdict c (.setKey n) = if !setKeyLen n then .errLen else .ok := rfl

theorem verdict_setIv (c : CoreState I) (n : Nat) :
    verdict c (.setIv n) = if !setIvLen I n then .errLen else if !c.keyValid then .errNokey else .ok := rfl

theorem verdict_update (c : CoreState I) (n : Nat) :
    verdict c (.update n) = if !blockLen I n then .errLen else if !updateLegal c.phase then .errPhase
      else if !aligned I c.authSize then .errAlign else .ok := by
  rw [updateLegal_eq]; rfl

theorem verdict_encrypt (c : CoreState I) (n : Nat) :
    verdict c (.encrypt n) = if !blockLen I n then .errLen else if !encryptLegal c.phase then .errPhase
      else if !aligned I c.dataSize then .errAlign else .ok := by
  rw [encryptLegal_eq]; rfl

theorem verdict_decrypt (c : CoreState I) (n : Nat) :
    verdict c (.decrypt n) = if !blockLen I n then .errLen else if !decryptLegal c.phase then .errPhase
      else if !aligned I c.dataSize then .errAlign else .ok := by
  rw [decryptLegal_eq]; rfl

theorem verdict_digest (c : CoreState I) (n : Nat) :
    verdict c (.digest n) = if !blockLen I n then .errLen else if !digestLegal c.phase then .errPhase else .ok := by
  rw [digestLegal_eq]; rfl

/-- A command is accepted exactly when every check passes. -/
theorem verdict_eq_ok_iff {c : CoreState I} {i : Instr} :
    verdict c i = .ok ↔ opcode i ≠ 7 ∧ lenLegal I i = true ∧ keyPresent c i = true ∧ phaseLegal i c.phase = true ∧
      streamAligned c i = true := by
  unfold verdict
  split_ifs <;> simp_all

/-! ## The work of an accepted command -/

/-- SET_IV's writes and cipher calls (R136). -/
def startSession (E : Cipher) (c : CoreState I) : CoreState I :=
  { askCipher E (discrimZ (nonceOperand c)) (askCipher E (discrimY (nonceOperand c)) c) with
    Y := ciph E c (discrimY (nonceOperand c))
    Z := ciph E c (discrimZ (nonceOperand c))
    sum := 0
    authSize := 0
    dataSize := 0
    phase := .ivset
    errSticky := false }

/-- SET_KEY's writes and its CKEY transaction (R175). -/
def loadKey (c : CoreState I) : CoreState I :=
  { emit [.ckey (keyOperand c)] c with
    K := keyOperand c
    keyValid := true
    phase := .uninit }

/-- DIGEST's writes and cipher call after the trailer's hash step (R140). -/
def sealSum (E : Cipher) (c : CoreState I) : CoreState I :=
  { askCipher E c.sum c with
    sum := ciph E c c.sum
    phase := .done }

/-- All that an accepted command does before it responds. A data command with `len = 0` does nothing (R142). -/
def work (E : Cipher) (c : CoreState I) : Instr → CoreState I
  | .nop _ => c
  | .setKey _ => loadKey c
  | .setIv _ => startSession E c
  | .update n => if n = 0 then c else absorb E n c
  | .encrypt n => if n = 0 then c else encryptBlock E n c
  | .decrypt n => if n = 0 then c else decryptBlock E n c
  | .digest _ => sealSum E (hashStep E (trailer c.authSize c.dataSize) c)
  | .reserved _ => c

/-- The byte count of an accepted command's response: only ENCRYPT, DECRYPT and DIGEST return bytes. -/
def answerLen : Instr → Nat
  | .encrypt n => n
  | .decrypt n => n
  | .digest n => n
  | .nop _ => 0
  | .setKey _ => 0
  | .setIv _ => 0
  | .update _ => 0
  | .reserved _ => 0

/-- The data block of an accepted command's response. -/
def answerData (E : Cipher) (c : CoreState I) : Instr → Block I
  | .encrypt n => if n = 0 then 0 else pad (streamOut E n c)
  | .decrypt n => if n = 0 then 0 else pad (streamOut E n c)
  | .digest n => pad (trunc (work E c (.digest n)).sum n)
  | .nop _ => 0
  | .setKey _ => 0
  | .setIv _ => 0
  | .update _ => 0
  | .reserved _ => 0

/-- The core after an accepted command. -/
def acceptedState (E : Cipher) (c : CoreState I) (i : Instr) : CoreState I :=
  respond .ok (answerLen i) (answerData E c i) (work E c i)

/-- How a command ends whose checks gave verdict `v`: in `done` if it is accepted, else in the rejection (R191, R197). -/
def conclude (done c : CoreState I) (v : Status) : CoreState I :=
  if v = .ok then done else reject v c

/-- The core after any command. -/
def commandState (E : Cipher) (c : CoreState I) (i : Instr) : CoreState I :=
  conclude (acceptedState E c i) c (verdict c i)

theorem commandState_of_ok {E : Cipher} {c : CoreState I} {i : Instr} (h : verdict c i = .ok) :
    commandState E c i = acceptedState E c i := if_pos h

theorem commandState_of_rejected {E : Cipher} {c : CoreState I} {i : Instr} (h : verdict c i ≠ .ok) :
    commandState E c i = reject (verdict c i) c := if_neg h

/-! ## Each command of the machine is its checks and its work -/

theorem conclude_ok (done c : CoreState I) : conclude done c .ok = done := rfl

/-- A failing check rejects with its own code; a passing one leaves the verdict to the checks after it. -/
theorem conclude_check {done c : CoreState I} {st v : Status} {p : Prop} [Decidable p] (hst : st ≠ .ok) :
    conclude done c (if p then st else v) = if p then reject st c else conclude done c v := by
  split
  · exact if_neg hst
  · rfl

theorem acceptedState_update (E : Cipher) (c : CoreState I) (n : Nat) :
    acceptedState E c (.update n) = if n = 0 then respond .ok 0 0 c else respond .ok 0 0 (absorb E n c) := by
  simp only [acceptedState, work]
  split <;> rfl

theorem acceptedState_encrypt (E : Cipher) (c : CoreState I) (n : Nat) :
    acceptedState E c (.encrypt n) =
      if n = 0 then respond .ok 0 0 c else respond .ok n (pad (streamOut E n c)) (encryptBlock E n c) := by
  simp only [acceptedState, work, answerLen, answerData]
  split
  · next h => rw [h]
  · rfl

theorem acceptedState_decrypt (E : Cipher) (c : CoreState I) (n : Nat) :
    acceptedState E c (.decrypt n) =
      if n = 0 then respond .ok 0 0 c else respond .ok n (pad (streamOut E n c)) (decryptBlock E n c) := by
  simp only [acceptedState, work, answerLen, answerData]
  split
  · next h => rw [h]
  · rfl

theorem setKeyCmd_eq (E : Cipher) (n : Nat) (c : CoreState I) : setKeyCmd n c = commandState E c (.setKey n) := by
  rw [commandState, verdict_setKey, conclude_check (by decide), conclude_ok]
  rfl

theorem setIvCmd_eq (E : Cipher) (n : Nat) (c : CoreState I) : setIvCmd E n c = commandState E c (.setIv n) := by
  rw [commandState, verdict_setIv, conclude_check (by decide), conclude_check (by decide), conclude_ok]
  rfl

theorem updateCmd_eq (E : Cipher) (n : Nat) (c : CoreState I) : updateCmd E n c = commandState E c (.update n) := by
  rw [commandState, verdict_update, conclude_check (by decide), conclude_check (by decide), conclude_check (by decide),
    conclude_ok, acceptedState_update]
  rfl

theorem encryptCmd_eq (E : Cipher) (n : Nat) (c : CoreState I) : encryptCmd E n c = commandState E c (.encrypt n) := by
  rw [commandState, verdict_encrypt, conclude_check (by decide), conclude_check (by decide), conclude_check (by decide),
    conclude_ok, acceptedState_encrypt]
  rfl

theorem decryptCmd_eq (E : Cipher) (n : Nat) (c : CoreState I) : decryptCmd E n c = commandState E c (.decrypt n) := by
  rw [commandState, verdict_decrypt, conclude_check (by decide), conclude_check (by decide), conclude_check (by decide),
    conclude_ok, acceptedState_decrypt]
  rfl

theorem digestCmd_eq (E : Cipher) (n : Nat) (c : CoreState I) : digestCmd E n c = commandState E c (.digest n) := by
  rw [commandState, verdict_digest, conclude_check (by decide), conclude_check (by decide), conclude_ok]
  rfl

/-- Every instruction, in every state, ends in the state its checks and its work give. -/
theorem exec_eq (i : Instr) (c : CoreState I) : exec i ⟨I, c⟩ = .next ⟨I, commandState Config.E c i⟩ := by
  cases i with
  | nop n => rfl
  | setKey n => rw [← setKeyCmd_eq]; rfl
  | setIv n => rw [← setIvCmd_eq]; rfl
  | update n => rw [← updateCmd_eq]; rfl
  | encrypt n => rw [← encryptCmd_eq]; rfl
  | decrypt n => rw [← decryptCmd_eq]; rfl
  | digest n => rw [← digestCmd_eq]; rfl
  | reserved n => rfl

/-- A step that takes a command off the host's list ends in the state of that command. -/
theorem step_of_cmd_eq {c : CoreState I} {m : Cmd I} {rest : List (Input I)} (h : c.inbox = .cmd m :: rest) :
    step ⟨I, c⟩ = .next ⟨I, commandState Config.E (accept m rest c) (decodeWord m.word)⟩ := by
  rw [step_of_cmd h, exec_eq]

/-! ## What the work of a command writes -/

theorem work_inbox (E : Cipher) (c : CoreState I) (i : Instr) : (work E c i).inbox = c.inbox := by
  cases i with
  | update n | encrypt n | decrypt n => simp only [work]; split <;> rfl
  | nop n | setKey n | setIv n | digest n | reserved n => rfl

/-- The work of a command takes exactly the transactions of R144's table. -/
theorem work_trace (E : Cipher) (c : CoreState I) (i : Instr) :
    (work E c i).trace = c.trace ++ trafficOf E c i := by
  cases i with
  | update n | encrypt n | decrypt n =>
    simp only [work, trafficOf]; split <;> simp [absorb, encryptBlock, decryptBlock, cipherPair]
  | nop n | reserved n => exact (List.append_nil _).symm
  | setKey n => rfl
  | setIv n | digest n => exact List.append_assoc ..

/-- The work of a command leaves the phase of R132's table. -/
theorem work_phase (E : Cipher) (c : CoreState I) (i : Instr) : (work E c i).phase = phaseAfter i c.phase := by
  cases i with
  | update n | encrypt n | decrypt n => simp only [work, phaseAfter]; split <;> rfl
  | nop n | setKey n | setIv n | digest n | reserved n => rfl

/-- NOP and the reserved operation leave the phase (R132). -/
theorem phaseAfter_of_not_writer {i : Instr} (h : opcode i ∉ [(1 : BitVec 3), 2, 3, 4, 5, 6]) (p : Phase) :
    phaseAfter i p = p := by
  cases i with
  | nop n | reserved n => rfl
  | setKey n | setIv n | update n | encrypt n | decrypt n | digest n => simp [opcode] at h

/-- An accepted command answers after its traffic, with the flags as they are after its writes (R53, R71). -/
theorem acceptedState_trace (E : Cipher) (c : CoreState I) (i : Instr) :
    (acceptedState E c i).trace = c.trace ++ trafficOf E c i ++
      [.rsp ⟨rspWord .ok (answerLen i) (acceptedState E c i).phase (acceptedState E c i).keyValid
        (acceptedState E c i).errSticky, answerData E c i⟩] := by
  rw [← work_trace]; rfl

/-- `Y` is written by SET_IV, ENCRYPT and DECRYPT (R21). -/
theorem work_Y (E : Cipher) (c : CoreState I) {i : Instr} (h : opcode i ∉ [(2 : BitVec 3), 4, 5]) :
    (work E c i).Y = c.Y := by
  cases i with
  | setIv n | encrypt n | decrypt n => simp [opcode] at h
  | update n => simp only [work]; split <;> rfl
  | nop n | setKey n | digest n | reserved n => rfl

/-- `Z` and `sum` are written by SET_IV, the data commands and DIGEST (R22, R23). -/
theorem work_Z_sum (E : Cipher) (c : CoreState I) {i : Instr} (h : opcode i ∉ [(2 : BitVec 3), 3, 4, 5, 6]) :
    (work E c i).Z = c.Z ∧ (work E c i).sum = c.sum := by
  cases i with
  | setIv n | update n | encrypt n | decrypt n | digest n => simp [opcode] at h
  | nop n | setKey n | reserved n => exact ⟨rfl, rfl⟩

/-- `authSize` is written by SET_IV and UPDATE (R24). -/
theorem work_authSize (E : Cipher) (c : CoreState I) {i : Instr} (h : opcode i ∉ [(2 : BitVec 3), 3]) :
    (work E c i).authSize = c.authSize := by
  cases i with
  | setIv n | update n => simp [opcode] at h
  | encrypt n | decrypt n => simp only [work]; split <;> rfl
  | nop n | setKey n | digest n | reserved n => rfl

/-- `dataSize` is written by SET_IV, ENCRYPT and DECRYPT (R25). -/
theorem work_dataSize (E : Cipher) (c : CoreState I) {i : Instr} (h : opcode i ∉ [(2 : BitVec 3), 4, 5]) :
    (work E c i).dataSize = c.dataSize := by
  cases i with
  | setIv n | encrypt n | decrypt n => simp [opcode] at h
  | update n => simp only [work]; split <;> rfl
  | nop n | setKey n | digest n | reserved n => rfl

/-- `K` and `key_valid` are written by SET_KEY (R29, R33). -/
theorem work_key (E : Cipher) (c : CoreState I) {i : Instr} (h : opcode i ≠ 1) :
    (work E c i).K = c.K ∧ (work E c i).keyValid = c.keyValid := by
  cases i with
  | setKey n => exact absurd rfl h
  | update n | encrypt n | decrypt n => simp only [work]; split <;> exact ⟨rfl, rfl⟩
  | nop n | setIv n | digest n | reserved n => exact ⟨rfl, rfl⟩

/-- The work of a command other than SET_IV leaves `err_sticky` (R30). -/
theorem work_errSticky (E : Cipher) (c : CoreState I) {i : Instr} (h : opcode i ≠ 2) :
    (work E c i).errSticky = c.errSticky := by
  cases i with
  | setIv n => exact absurd rfl h
  | update n | encrypt n | decrypt n => simp only [work]; split <;> rfl
  | nop n | setKey n | digest n | reserved n => rfl

/-- SET_IV clears `err_sticky` (R30). -/
theorem work_errSticky_of_setIv (E : Cipher) (c : CoreState I) {i : Instr} (h : opcode i = 2) :
    (work E c i).errSticky = false := by
  cases i with
  | setIv n => rfl
  | nop n | setKey n | update n | encrypt n | decrypt n | digest n | reserved n => simp [opcode] at h

@[simp] theorem firstHalf_nextY (len : Nat) (Y : Block I) : firstHalf (nextY len Y) = firstHalf Y := by
  unfold nextY
  split
  · exact firstHalf_incrR Y
  · rfl

/-- Only SET_IV writes the first half of `Y` and the second half of `Z`: `Y` advances by INCR_R, `Z` by INCR_L. -/
theorem work_halves (E : Cipher) (c : CoreState I) {i : Instr} (h : opcode i ≠ 2) :
    firstHalf (work E c i).Y = firstHalf c.Y ∧ secondHalf (work E c i).Z = secondHalf c.Z := by
  cases i with
  | setIv n => exact absurd rfl h
  | update n | encrypt n | decrypt n =>
    simp only [work]
    split
    · exact ⟨rfl, rfl⟩
    · simp [absorb, encryptBlock, decryptBlock]
  | digest n => exact ⟨rfl, secondHalf_incrL c.Z⟩
  | nop n | setKey n | reserved n => exact ⟨rfl, rfl⟩

/-! ## What a command changes, accepted or rejected -/

/-- What an accepted command's work leaves and a rejection leaves, every command leaves. -/
theorem commandState_keeps {α : Type} (f : CoreState I → α) {E : Cipher} {c : CoreState I} {i : Instr}
    (hrej : f (reject (verdict c i) c) = f c) (hacc : verdict c i = .ok → f (acceptedState E c i) = f c) :
    f (commandState E c i) = f c := by
  by_cases h : verdict c i = .ok
  · rw [commandState_of_ok h, hacc h]
  · rw [commandState_of_rejected h, hrej]

theorem rejectedState_eq (st : Status) (c : CoreState I) : rejectedState st c = reject st c := rfl

theorem eq_setKey_of_accepted {c : CoreState I} {i : Instr} (hok : verdict c i = .ok) (hop : opcode i = 1) :
    i = .setKey 0 := by
  cases i with
  | setKey n =>
    obtain ⟨-, hlen, -⟩ := verdict_eq_ok_iff.1 hok
    rw [of_decide_eq_true hlen]
  | nop n | setIv n | update n | encrypt n | decrypt n | digest n | reserved n => simp [opcode] at hop

/-- Nothing but an accepted SET_KEY writes `K` or `key_valid` (R29, R33). -/
theorem commandState_key (E : Cipher) (c : CoreState I) {i : Instr} (h : i ≠ .setKey 0) :
    (commandState E c i).K = c.K ∧ (commandState E c i).keyValid = c.keyValid := by
  have hop : verdict c i = .ok → opcode i ≠ 1 := fun hok hop => h (eq_setKey_of_accepted hok hop)
  exact ⟨commandState_keeps (·.K) rfl fun hok => (work_key E c (hop hok)).1,
    commandState_keeps (·.keyValid) rfl fun hok => (work_key E c (hop hok)).2⟩

/-- SET_IV with a whole nonce and no key fails its key check (R194). -/
theorem verdict_setIv_of_no_key {c : CoreState I} (h : c.keyValid = false) : verdict c (.setIv I.B) = .errNokey := by
  simp [verdict_setIv, setIvLen, h]

/-! ## The response word -/

/-- A response that an accepted command sends has at most `B` bytes. -/
theorem answerLen_le {c : CoreState I} {i : Instr} (h : verdict c i = .ok) : answerLen i ≤ I.B := by
  obtain ⟨-, hlen, -⟩ := verdict_eq_ok_iff.1 h
  cases i with
  | encrypt n | decrypt n | digest n => exact of_decide_eq_true hlen
  | nop n | setKey n | setIv n | update n | reserved n => exact Nat.zero_le _

theorem inst_B_lt (I : Inst) : I.B < 32 := by cases I <;> decide

/-- Bit 13 of a response word is `err_sticky` (R71). -/
theorem rspWord_getLsbD_13 (st : Status) {len : Nat} (hlen : len < 32) (p : Phase) (k e : Bool) :
    (rspWord st len p k e).getLsbD 13 = e := by
  have hbit : (BitVec.ofNat 16 len)[9] = false := by
    rw [← BitVec.getLsbD_eq_getElem, BitVec.getLsbD_ofNat, Nat.testBit_lt_two_pow (by omega), Bool.and_false]
  cases p <;> simp [rspWord, Phase.code, hbit]

/-! ## The session invariant -/

/-- The clauses of `CoreState.Inv` on the session registers, which hold while a command executes too. -/
structure SessionInv (c : CoreState I) : Prop where
  live_has_key : c.phase ≠ .uninit → c.keyValid = true
  ivset_sizes : c.phase = .ivset → c.authSize = 0 ∧ c.dataSize = 0
  ivset_sum : c.phase = .ivset → c.sum = 0
  ad_no_data : c.phase = .ad → c.dataSize = 0

theorem inv_iff {c : CoreState I} : c.Inv ↔ SessionInv c ∧ c.cmd = noCmd I :=
  ⟨fun ⟨hkey, hsizes, hsum, hdata, hcmd⟩ => ⟨⟨hkey, hsizes, hsum, hdata⟩, hcmd⟩,
    fun ⟨⟨hkey, hsizes, hsum, hdata⟩, hcmd⟩ => ⟨hkey, hsizes, hsum, hdata, hcmd⟩⟩

theorem respond_inv {st : Status} {len : Nat} {data : Block I} {c : CoreState I} (h : SessionInv c) :
    (respond st len data c).Inv :=
  inv_iff.2 ⟨⟨h.live_has_key, h.ivset_sizes, h.ivset_sum, h.ad_no_data⟩, rfl⟩

theorem reject_inv {st : Status} {c : CoreState I} (h : SessionInv c) : (reject st c).Inv :=
  inv_iff.2 ⟨⟨h.live_has_key, h.ivset_sizes, h.ivset_sum, h.ad_no_data⟩, rfl⟩

theorem accept_sessionInv {c : CoreState I} (h : SessionInv c) (m : Cmd I) (rest : List (Input I)) :
    SessionInv (accept m rest c) :=
  ⟨h.live_has_key, h.ivset_sizes, h.ivset_sum, h.ad_no_data⟩

/-- Without a session the registers are bound by nothing (R37). -/
theorem sessionInv_of_uninit {c : CoreState I} (h : c.phase = .uninit) : SessionInv c := by
  constructor <;> simp [h]

/-- Once a data byte was processed, or the tag was made, only the key is left to hold. -/
theorem sessionInv_of_key {c : CoreState I} (hkey : c.keyValid = true) (hiv : c.phase ≠ .ivset) (had : c.phase ≠ .ad) :
    SessionInv c := by
  constructor <;> simp [hkey, hiv, had]

/-- UPDATE is accepted in IVSET and AD only, where no data byte has been processed. -/
theorem no_data_of_update_accepted {c : CoreState I} {n : Nat} (h : SessionInv c) (hok : verdict c (.update n) = .ok) :
    c.dataSize = 0 := by
  obtain ⟨-, -, -, hphase, -⟩ := verdict_eq_ok_iff.1 hok
  have hmem : c.phase = .ivset ∨ c.phase = .ad := by simpa [phaseLegal] using hphase
  exact hmem.elim (fun hiv => (h.ivset_sizes hiv).2) h.ad_no_data

/-- An accepted command that leaves a live session has the key: SET_IV is checked for it, and the others are accepted
only in a live session or leave the phase. -/
theorem key_of_accepted {c : CoreState I} {i : Instr} (h : SessionInv c) (hok : verdict c i = .ok)
    (hlive : phaseAfter i c.phase ≠ .uninit) : c.keyValid = true := by
  obtain ⟨hres, -, hkey, hphase, -⟩ := verdict_eq_ok_iff.1 hok
  cases i with
  | nop n => exact h.live_has_key hlive
  | setKey n => exact absurd rfl hlive
  | setIv n => exact hkey
  | reserved n => exact absurd rfl hres
  | update n | encrypt n | decrypt n | digest n =>
    exact h.live_has_key fun hp => by simp [hp, phaseLegal] at hphase

/-- The work of an accepted command keeps the session invariant. -/
theorem work_sessionInv (E : Cipher) {c : CoreState I} {i : Instr} (h : SessionInv c) (hok : verdict c i = .ok) :
    SessionInv (work E c i) := by
  have hkey := key_of_accepted h hok
  cases i with
  | nop n => exact h
  | reserved n => exact h
  | setKey n => exact sessionInv_of_uninit rfl
  | setIv n => exact ⟨fun _ => hkey nofun, fun _ => ⟨rfl, rfl⟩, fun _ => rfl, nofun⟩
  | digest n => exact sessionInv_of_key (hkey nofun) nofun nofun
  | update n =>
    have hdata := no_data_of_update_accepted h hok
    simp only [work, phaseAfter] at hkey ⊢
    split at hkey
    · rwa [if_pos ‹_›]
    · rw [if_neg ‹_›]
      exact ⟨fun _ => hkey nofun, nofun, nofun, fun _ => hdata⟩
  | encrypt n | decrypt n =>
    simp only [work, phaseAfter] at hkey ⊢
    split at hkey
    · rwa [if_pos ‹_›]
    · rw [if_neg ‹_›]
      exact sessionInv_of_key (hkey nofun) nofun nofun

/-- Every command ends in a state that meets the invariant, with the command buffer empty. -/
theorem commandState_inv (E : Cipher) {c : CoreState I} (h : SessionInv c) (i : Instr) : (commandState E c i).Inv := by
  by_cases hok : verdict c i = .ok
  · rw [commandState_of_ok hok]; exact respond_inv (work_sessionInv E h hok)
  · rw [commandState_of_rejected hok]; exact reject_inv h

theorem applyReset_inv (rest : List (Input I)) (c : CoreState I) : (applyReset rest c).Inv :=
  inv_iff.2 ⟨sessionInv_of_uninit rfl, rfl⟩

theorem reset_inv (I : Inst) : (CoreState.reset I).Inv := inv_iff.2 ⟨sessionInv_of_uninit rfl, rfl⟩

/-- The channels' past is empty at reset, and nothing is owed (R220). -/
theorem reset_channelsOk (I : Inst) : (CoreState.reset I).ChannelsOk := rfl

end Sys2Proof.Machine
end

section
/-! SUPPORT. The statements of spec/10_state.md, each settled by the lemmas above. -/

namespace Sys2Proof.Machine

/-- Settles O30: a step is idle, the reset input, or one command. -/
theorem everyStepKeepsTheSessionInvariant : Obligations.EveryStepKeepsTheSessionInvariant := by
  rintro ⟨I, c⟩ t (h : c.Inv) hstep
  obtain ⟨-, hnext⟩ | ⟨rest, -, hnext⟩ | ⟨m, rest, -, hnext⟩ := step_cases c
  · cases hnext.symm.trans hstep
    exact h
  · cases hnext.symm.trans hstep
    exact applyReset_inv rest c
  · cases (hnext.trans (exec_eq ..)).symm.trans hstep
    exact commandState_inv Config.E (accept_sessionInv (inv_iff.1 h).1 m rest) _

/-- Settles O24: SET_IV fails its key check, and only an accepted SET_KEY writes `K` and `key_valid`. -/
theorem keyIsWrittenBySetKeyAlone : Obligations.KeyIsWrittenBySetKeyAlone := by
  refine ⟨fun _ => rfl, fun I c hkey => ?_, fun I c => ⟨fun rest hin => ?_, fun m rest hin => ?_⟩⟩
  · have hv := verdict_setIv_of_no_key hkey
    rw [exec_eq, commandState_of_rejected (by simp [hv]), hv, rejectedState_eq]
  · exact ⟨_, step_of_reset hin, rfl⟩
  · refine ⟨_, step_of_cmd_eq hin, fun hw => ?_, fun hw => ?_⟩
    · rw [hw]; exact ⟨rfl, rfl⟩
    · exact (commandState_key _ _ hw).symm

/-- Settles O25: a rejection answers with `err_sticky` set; an accepted command answers with it as its work left it. -/
theorem errStickyIsSetByRejectionsAlone : Obligations.ErrStickyIsSetByRejectionsAlone := by
  refine ⟨fun I c rest hin => ⟨_, step_of_reset hin, rfl⟩, fun I c i => ?_⟩
  by_cases hok : verdict c i = .ok
  · refine ⟨acceptedState Config.E c i, trafficOf Config.E c i, _, ?exec, acceptedState_trace Config.E c i, ?bit,
      absurd hok, fun _ => work_errSticky_of_setIv Config.E c, fun _ => work_errSticky Config.E c⟩
    case exec => rw [exec_eq, commandState_of_ok hok]
    case bit => exact rspWord_getLsbD_13 _ ((answerLen_le hok).trans_lt (inst_B_lt I)) _ _ _
  · refine ⟨reject (verdict c i) c, [], ⟨rspWord (verdict c i) 0 c.phase c.keyValid true, 0⟩, ?exec, ?trace, ?bit,
      fun _ => rfl, (absurd · hok), (absurd · hok)⟩
    case exec => rw [exec_eq, commandState_of_rejected hok]
    case trace => rw [List.append_nil]; rfl
    case bit => exact rspWord_getLsbD_13 _ (by decide) _ _ _

/-- Settles O26, register by register: a rejection leaves it, and so does the work of a command that does not
write it. -/
theorem registersAreWrittenOnlyByTheirWriters : Obligations.RegistersAreWrittenOnlyByTheirWriters := by
  intro I c i
  refine ⟨commandState Config.E c i, exec_eq i c, ?inbox, fun h => ?Y, fun h => ⟨?Z, ?sum⟩, fun h => ?authSize,
    fun h => ?dataSize, fun h => ?key, fun hok h => ?errSticky, fun h => ?phase⟩
  case inbox => exact commandState_keeps (·.inbox) rfl fun _ => work_inbox _ c i
  case Y => exact commandState_keeps (·.Y) rfl fun _ => work_Y _ c h
  case Z => exact commandState_keeps (·.Z) rfl fun _ => (work_Z_sum _ c h).1
  case sum => exact commandState_keeps (·.sum) rfl fun _ => (work_Z_sum _ c h).2
  case authSize => exact commandState_keeps (·.authSize) rfl fun _ => work_authSize _ c h
  case dataSize => exact commandState_keeps (·.dataSize) rfl fun _ => work_dataSize _ c h
  case key => exact commandState_key _ c (by rintro rfl; exact h rfl)
  case errSticky => rw [commandState_of_ok hok]; exact work_errSticky _ c h
  case phase => exact commandState_keeps (·.phase) rfl fun _ => (work_phase _ c i).trans (phaseAfter_of_not_writer h _)

/-- Settles O27: `Y` advances by INCR_R, which keeps its first half, and `Z` by INCR_L, which keeps its second. -/
theorem sessionKeepsHalfOfEachCounter : Obligations.SessionKeepsHalfOfEachCounter := by
  intro I c i h
  refine ⟨commandState Config.E c i, exec_eq i c, ?_, ?_⟩
  · exact commandState_keeps (fun c => firstHalf c.Y) rfl fun _ => (work_halves _ c h).1
  · exact commandState_keeps (fun c => secondHalf c.Z) rfl fun _ => (work_halves _ c h).2

/-- Settles O29: in UNINIT no clause of the invariant bites, and the channels have no past. -/
theorem resetStateIsSafe : Obligations.ResetStateIsSafe :=
  have hsafe (I : Inst) : (State.resetOf I).Safe := ⟨reset_inv I, reset_channelsOk I⟩
  ⟨hsafe .mgm, hsafe⟩

end Sys2Proof.Machine
end

section
/-!
SUPPORT. The channels during one command (spec/20_memory.md R51 to R54): the fields of a response word (R71), the form
of every response (R74), and the protocol of the channels along the transactions of a command.
-/

namespace Sys2Proof.Machine

variable {I : Inst}

/-! ## The fields of a response word -/

/-- Fields that do not overlap add up. -/
theorem toNat_or_shiftLeft {w k : Nat} {x y : BitVec w} (hx : x.toNat < 2 ^ k) (hy : y.toNat * 2 ^ k < 2 ^ w) :
    (x ||| y <<< k).toNat = x.toNat + y.toNat * 2 ^ k := by
  rw [BitVec.toNat_or, BitVec.toNat_shiftLeft, Nat.shiftLeft_eq, Nat.mod_eq_of_lt hy, Nat.or_comm, ← Nat.shiftLeft_eq,
    ← Nat.shiftLeft_add_eq_or_of_lt hx, Nat.shiftLeft_eq, Nat.add_comm]

theorem toNat_rspFields {s l p k e : BitVec 16} (hs : s.toNat < 2 ^ 4) (hl : l.toNat < 2 ^ 5) (hp : p.toNat < 2 ^ 3)
    (hk : k.toNat < 2) (he : e.toNat < 2) :
    (s ||| l <<< 4 ||| p <<< 9 ||| k <<< 12 ||| e <<< 13).toNat =
      s.toNat + l.toNat * 2 ^ 4 + p.toNat * 2 ^ 9 + k.toNat * 2 ^ 12 + e.toNat * 2 ^ 13 := by
  have hsl : (s ||| l <<< 4).toNat = _ := toNat_or_shiftLeft hs (by omega)
  have hslp : (s ||| l <<< 4 ||| p <<< 9).toNat = _ := toNat_or_shiftLeft (by omega) (by omega)
  have hslpk : (s ||| l <<< 4 ||| p <<< 9 ||| k <<< 12).toNat = _ := toNat_or_shiftLeft (by omega) (by omega)
  rw [toNat_or_shiftLeft (by omega) (by omega), hslpk, hslp, hsl]

theorem statusCode_le (st : Status) : st.code.toNat ≤ 5 := by cases st <;> decide

theorem phaseCode_le (p : Phase) : p.code.toNat ≤ 5 := by cases p <;> decide

/-- The value of a response word: its five fields side by side (R71). -/
theorem rspWord_toNat (st : Status) {len : Nat} (hlen : len < 32) (p : Phase) (k e : Bool) :
    (rspWord st len p k e).toNat =
      st.code.toNat + len * 2 ^ 4 + p.code.toNat * 2 ^ 9 + k.toNat * 2 ^ 12 + e.toNat * 2 ^ 13 := by
  have hst : (st.code.setWidth 16).toNat = st.code.toNat := BitVec.toNat_setWidth_of_le (by decide)
  have hl : (BitVec.ofNat 16 len).toNat = len := Nat.mod_eq_of_lt (by omega)
  have hp : (p.code.setWidth 16).toNat = p.code.toNat := BitVec.toNat_setWidth_of_le (by decide)
  have hbit (b : Bool) : ((BitVec.ofBool b).setWidth 16).toNat = b.toNat := by cases b <;> rfl
  have hst5 := statusCode_le st
  have hp5 := phaseCode_le p
  rw [rspWord, toNat_rspFields, hst, hl, hp, hbit, hbit]
  · omega
  · omega
  · omega
  · rw [hbit]; exact k.toNat_lt
  · rw [hbit]; exact e.toNat_lt

/-- The `status`, `len`, `phase` and reserved fields read back from a response word (R71). -/
theorem rspWord_fields (st : Status) {len : Nat} (hlen : len < 32) (p : Phase) (k e : Bool) :
    (rspWord st len p k e).extractLsb' 0 4 = st.code ∧ rspLen (rspWord st len p k e) = len ∧
      (rspWord st len p k e).extractLsb' 9 3 = p.code ∧ (rspWord st len p k e).extractLsb' 14 2 = 0 := by
  have hword := rspWord_toNat st hlen p k e
  have hst := statusCode_le st
  have hp := phaseCode_le p
  have hk := k.toNat_lt
  have he := e.toNat_lt
  refine ⟨BitVec.eq_of_toNat_eq ?_, ?_, BitVec.eq_of_toNat_eq ?_, BitVec.eq_of_toNat_eq ?_⟩ <;>
    simp only [rspLen, BitVec.extractLsb'_toNat, Nat.shiftRight_eq_div_pow, hword, BitVec.ofNat_eq_ofNat,
      BitVec.toNat_ofNat] <;>
    omega

/-! ## Padded answers -/

theorem trunc_pad {s : List Byte} (h : s.length ≤ I.B) : trunc (pad s : Block I) s.length = s := by
  have hlen : (s ++ zeros (I.B - s.length)).length = I.B := by
    rw [List.length_append, length_zeros, Nat.add_sub_cancel' h]
  rw [trunc, pad, toBytes_ofBytes hlen, List.take_left]

theorem pad_nil : (pad [] : Block I) = 0 := by cases I <;> decide

theorem length_streamOut (E : Cipher) {n : Nat} (hn : n ≤ I.B) (c : CoreState I) : (streamOut E n c).length = n := by
  simp [streamOut, dataOperand, hn]

/-- The bytes an accepted command returns. -/
def answerBytes (E : Cipher) (c : CoreState I) : Instr → List Byte
  | .encrypt n => streamOut E n c
  | .decrypt n => streamOut E n c
  | .digest n => trunc (work E c (.digest n)).sum n
  | .nop _ => []
  | .setKey _ => []
  | .setIv _ => []
  | .update _ => []
  | .reserved _ => []

theorem length_answerBytes (E : Cipher) {c : CoreState I} {i : Instr} (hok : verdict c i = .ok) :
    (answerBytes E c i).length = answerLen i := by
  have hlen := answerLen_le hok
  cases i with
  | encrypt n | decrypt n => exact length_streamOut E hlen c
  | digest n => exact (length_trunc _ n).trans (min_eq_left hlen)
  | nop n | setKey n | setIv n | update n | reserved n => rfl

/-- The data block of a response is the bytes returned, zeros after (R74). -/
theorem answerData_eq_pad (E : Cipher) {c : CoreState I} {i : Instr} (hok : verdict c i = .ok) :
    answerData E c i = pad (answerBytes E c i) := by
  cases i with
  | encrypt n | decrypt n =>
    simp only [answerData]
    split
    · next h =>
      subst h
      rw [List.length_eq_zero_iff.1 (length_answerBytes E hok), pad_nil]
    · rfl
  | digest n => rfl
  | nop n | setKey n | setIv n | update n | reserved n => exact pad_nil.symm

/-! ## The form of a response -/

/-- A response with padded data is well formed if it reports success, or carries no byte and `err_sticky`. -/
theorem rspWellFormed_pad {st : Status} {s : List Byte} {p : Phase} {k e : Bool} (hlen : s.length ≤ I.B)
    (h : st = .ok ∨ s = [] ∧ e = true) : rspWellFormed (I := I) ⟨rspWord st s.length p k e, pad s⟩ = true := by
  have hlen32 : s.length < 32 := hlen.trans_lt (inst_B_lt I)
  obtain ⟨hst, hl, hp, hres⟩ := rspWord_fields st hlen32 p k e
  have hsticky := rspWord_getLsbD_13 st hlen32 p k e
  simp only [rspWellFormed, hst, hl, hp, hres, hsticky, trunc_pad hlen, statusCode_le, phaseCode_le, hlen]
  obtain rfl | ⟨rfl, rfl⟩ := h
  · simp [Status.code]
  · simp [pad_nil]

theorem rspWellFormed_accepted (E : Cipher) {c : CoreState I} {i : Instr} (hok : verdict c i = .ok) (p : Phase)
    (k e : Bool) : rspWellFormed ⟨rspWord .ok (answerLen i) p k e, answerData E c i⟩ = true := by
  rw [answerData_eq_pad E hok, ← length_answerBytes E hok]
  exact rspWellFormed_pad ((length_answerBytes E hok).trans_le (answerLen_le hok)) (.inl rfl)

theorem rspWellFormed_rejected (st : Status) (p : Phase) (k : Bool) :
    rspWellFormed (I := I) ⟨rspWord st 0 p k true, 0⟩ = true := by
  rw [← pad_nil]
  exact rspWellFormed_pad (s := []) (Nat.zero_le _) (.inr ⟨rfl, rfl⟩)

/-! ## The protocol along a sequence of transactions -/

theorem chanRun_append (E : Cipher) (es fs : List (Event I)) (o : Owes I × Option Key) :
    chanRun E (es ++ fs) o = (chanRun E es o).bind (chanRun E fs) := by
  induction es generalizing o with
  | nil => rfl
  | cons e es ih =>
    rw [List.cons_append, chanRun, chanRun, Option.bind_assoc]
    exact congrArg _ (funext ih)

/-- A cipher call under the key last sent is answered before anything else (R54, R171). -/
@[simp] theorem chanRun_cipherPair (E : Cipher) (k : Key) (b : Block I) :
    chanRun E (cipherPair E k b) (.response, some k) = some (.response, some k) := by
  simp [cipherPair, chanRun, chanStep]

/-- The key the cipher was last sent, if there was one since reset. -/
def keySent (c : CoreState I) : Option Key := if c.keyValid then some c.K else none

theorem keySent_of_valid {c : CoreState I} (h : c.keyValid = true) : keySent c = some c.K := if_pos h

theorem keySent_work (E : Cipher) (c : CoreState I) {i : Instr} (h : opcode i ≠ 1) :
    keySent (work E c i) = keySent c := by
  obtain ⟨hK, hvalid⟩ := work_key E c h
  rw [keySent, keySent, hK, hvalid]

/-- An accepted command's traffic keeps the protocol: it has a cipher call only if a key was sent, and only SET_KEY
sends another. -/
theorem chanRun_trafficOf (E : Cipher) {c : CoreState I} {i : Instr} (h : SessionInv c) (hok : verdict c i = .ok) :
    chanRun E (trafficOf E c i) (.response, keySent c) = some (.response, keySent (work E c i)) := by
  have hkey := key_of_accepted h hok
  cases i with
  | nop n | setKey n | reserved n => rfl
  | setIv n | digest n =>
    rw [keySent_work E c (by simp [opcode]), keySent_of_valid (hkey nofun)]
    simp [trafficOf, chanRun_append]
  | update n | encrypt n | decrypt n =>
    rw [keySent_work E c (by simp [opcode])]
    simp only [trafficOf, phaseAfter] at hkey ⊢
    split
    · rfl
    · rw [if_neg ‹_›] at hkey
      rw [keySent_of_valid (hkey nofun)]
      simp [chanRun_append]

/-- The channels' past follows the protocol, `o` is owed, and the key last sent is the one the cipher holds. -/
def ChannelsAt (o : Owes I) (c : CoreState I) : Prop :=
  chanRun Config.E c.trace (.nothing, none) = some (o, keySent c)

theorem channelsOk_iff {c : CoreState I} : c.ChannelsOk ↔ ChannelsAt .nothing c := Iff.rfl

/-- Transactions that the protocol allows next extend a past that follows it. -/
theorem ChannelsAt.append {o o' : Owes I} {c t : CoreState I} {es : List (Event I)} (h : ChannelsAt o c)
    (htrace : t.trace = c.trace ++ es) (hrun : chanRun Config.E es (o, keySent c) = some (o', keySent t)) :
    ChannelsAt o' t := by
  rw [ChannelsAt, htrace, chanRun_append, h]
  exact hrun

theorem accept_channelsAt {c : CoreState I} (h : ChannelsAt .nothing c) (m : Cmd I) (rest : List (Input I)) :
    ChannelsAt .response (accept m rest c) :=
  h.append (accept_trace m rest c) rfl

theorem work_channelsAt {c : CoreState I} {i : Instr} (h : ChannelsAt .response c) (hs : SessionInv c)
    (hok : verdict c i = .ok) : ChannelsAt .response (work Config.E c i) :=
  h.append (work_trace Config.E c i) (chanRun_trafficOf Config.E hs hok)

theorem respond_channelsAt {st : Status} {len : Nat} {data : Block I} {c : CoreState I} (h : ChannelsAt .response c)
    (hrsp : rspWellFormed ⟨rspWord st len c.phase c.keyValid c.errSticky, data⟩ = true) :
    ChannelsAt .nothing (respond st len data c) := by
  refine h.append (respond_trace st len data c) ?_
  rw [chanRun, chanStep, if_pos hrsp]
  rfl

theorem reject_channelsAt {c : CoreState I} (h : ChannelsAt .response c) (st : Status) :
    ChannelsAt .nothing (reject st c) :=
  respond_channelsAt (c := { c with errSticky := true }) h (rspWellFormed_rejected st _ _)

/-- Every command is completed by one response, after which nothing is owed. -/
theorem commandState_channelsAt {c : CoreState I} (h : ChannelsAt .response c) (hs : SessionInv c) (i : Instr) :
    ChannelsAt .nothing (commandState Config.E c i) := by
  by_cases hok : verdict c i = .ok
  · rw [commandState_of_ok hok]
    exact respond_channelsAt (work_channelsAt h hs hok) (rspWellFormed_accepted Config.E hok _ _ _)
  · rw [commandState_of_rejected hok]
    exact reject_channelsAt h _

theorem applyReset_channelsAt {c : CoreState I} (h : ChannelsAt .nothing c) (rest : List (Input I)) :
    ChannelsAt .nothing (applyReset rest c) :=
  h.append (applyReset_trace rest c) rfl

/-! ## The transactions between acceptance and response -/

/-- A transaction with the cipher: a key, a request or an answer. -/
def IsCipherEvent (e : Event I) : Prop := (∃ k, e = .ckey k) ∨ (∃ b, e = .creq b) ∨ (∃ b, e = .crsp b)

theorem isCipherEvent_of_mem_cipherPair {E : Cipher} {k : Key} {b : Block I} {e : Event I}
    (h : e ∈ cipherPair E k b) : IsCipherEvent e := by
  obtain rfl | rfl : e = .creq b ∨ e = .crsp (E I k b) := by simpa [cipherPair] using h
  · exact .inr (.inl ⟨_, rfl⟩)
  · exact .inr (.inr ⟨_, rfl⟩)

theorem isCipherEvent_of_mem_cipherPairs {E : Cipher} {k : Key} {a b : Block I} {e : Event I}
    (h : e ∈ cipherPair E k a ++ cipherPair E k b) : IsCipherEvent e :=
  (List.mem_append.1 h).elim isCipherEvent_of_mem_cipherPair isCipherEvent_of_mem_cipherPair

theorem isCipherEvent_of_mem_trafficOf {E : Cipher} {c : CoreState I} {i : Instr} {e : Event I}
    (h : e ∈ trafficOf E c i) : IsCipherEvent e := by
  cases i with
  | nop n | reserved n => cases h
  | setKey n => exact .inl ⟨_, List.mem_singleton.1 h⟩
  | setIv n | digest n => exact isCipherEvent_of_mem_cipherPairs h
  | update n =>
    simp only [trafficOf] at h
    split at h
    · cases h
    · exact isCipherEvent_of_mem_cipherPair h
  | encrypt n | decrypt n =>
    simp only [trafficOf] at h
    split at h
    · cases h
    · exact isCipherEvent_of_mem_cipherPairs h

/-- What a command adds to the channels' past: transactions with the cipher, then one response of at most `B` bytes with
the flags as they are after it (R53, R71). -/
theorem commandState_trace (E : Cipher) (c : CoreState I) (i : Instr) :
    ∃ (mid : List (Event I)) (st : Status) (len : Nat) (data : Block I), len ≤ I.B ∧
      (commandState E c i).trace = c.trace ++ mid ++ [.rsp ⟨rspWord st len (commandState E c i).phase
        (commandState E c i).keyValid (commandState E c i).errSticky, data⟩] ∧
      ∀ e ∈ mid, IsCipherEvent e := by
  by_cases hok : verdict c i = .ok
  · rw [commandState_of_ok hok]
    exact ⟨trafficOf E c i, .ok, answerLen i, answerData E c i, answerLen_le hok, acceptedState_trace E c i,
      fun _ => isCipherEvent_of_mem_trafficOf⟩
  · rw [commandState_of_rejected hok]
    exact ⟨[], verdict c i, 0, 0, Nat.zero_le _, by rw [List.append_nil]; rfl, nofun⟩

theorem commandState_inbox (E : Cipher) (c : CoreState I) (i : Instr) : (commandState E c i).inbox = c.inbox :=
  commandState_keeps (·.inbox) rfl fun _ => work_inbox E c i

/-- Every command empties the command buffer. -/
theorem commandState_cmd (E : Cipher) (c : CoreState I) (i : Instr) : (commandState E c i).cmd = noCmd I := by
  rw [commandState, conclude]
  split <;> rfl

end Sys2Proof.Machine
end

section
/-! SUPPORT. The statements of spec/20_memory.md, each settled by the lemmas above. -/

namespace Sys2Proof.Machine

/-- Settles O31: a step is idle, the reset input, or one command, whose traffic is allowed because a live session has a
key (`SessionInv`). -/
theorem everyStepKeepsTheChannelProtocol : Obligations.EveryStepKeepsTheChannelProtocol := by
  rintro s t ⟨hinv, hchan⟩ hstep
  refine ⟨everyStepKeepsTheSessionInvariant s t hinv hstep, ?_⟩
  obtain ⟨I, c⟩ := s
  obtain ⟨-, hnext⟩ | ⟨rest, -, hnext⟩ | ⟨m, rest, hin, -⟩ := step_cases c
  · cases hnext.symm.trans hstep
    exact hchan
  · cases hnext.symm.trans hstep
    exact applyReset_channelsAt hchan rest
  · cases (step_of_cmd_eq hin).symm.trans hstep
    have hsession : SessionInv c := (inv_iff.1 hinv).1
    exact commandState_channelsAt (accept_channelsAt hchan m rest) (accept_sessionInv hsession m rest) _

/-- Settles O22: what a command adds to the channels' past after its acceptance, whatever its checks decide. -/
theorem oneResponsePerCommand : Obligations.OneResponsePerCommand := by
  intro I c m rest hin
  obtain ⟨mid, st, len, data, hlen, htrace, hmid⟩ :=
    commandState_trace Config.E (accept m rest c) (decodeWord m.word)
  exact ⟨_, mid, st, len, data, step_of_cmd_eq hin, commandState_inbox .., commandState_cmd .., hlen, htrace, hmid⟩

/-- Settles O7: acceptance is what `accept_eq` says, and no word decodes to an instruction that is not well formed. -/
theorem stepRunsTheDecodedCommand : Obligations.StepRunsTheDecodedCommand := by
  rintro I c m rest i hin rfl -
  rw [step_of_cmd hin, accept_eq]

end Sys2Proof.Machine
end

section
/-!
SUPPORT. The command word (spec/30_encoding.md R61, R62, R69): its two fields as numbers, what decoding keeps of them,
and that encoding undoes decoding; how many words decode to an operation with a property; and the `key_valid` bit of the
response word (R71).
-/

namespace Sys2Proof.Machine

/-! ## The two fields of a word -/

theorem toNat_opField (w : BitVec 8) : (opField w).toNat = w.toNat % 8 := by
  simp [opField]

theorem toNat_lenField (w : BitVec 8) : (lenField w).toNat = w.toNat / 8 := by
  have hw := w.isLt
  simp only [lenField, BitVec.extractLsb'_toNat, Nat.shiftRight_eq_div_pow]
  omega

/-- A word is its two fields side by side: no bit is left over (R61). -/
theorem word_toNat (w : BitVec 8) : w.toNat = (lenField w).toNat * 2 ^ 3 + (opField w).toNat := by
  rw [toNat_lenField, toNat_opField]
  omega

/-- The mask `0x07` keeps the `op` field (R80). -/
theorem setWidth_masked (w : BitVec 8) : (w &&& 0x07).setWidth 3 = opField w := by
  apply BitVec.eq_of_toNat_eq
  have hmask : w.toNat &&& 7 = w.toNat % 8 := Nat.and_two_pow_sub_one_eq_mod w.toNat 3
  rw [toNat_opField, BitVec.toNat_setWidth, BitVec.toNat_and, show (0x07 : BitVec 8).toNat = 7 from rfl, hmask]
  omega

theorem toNat_shiftRight_three (w : BitVec 8) : (w >>> 3).toNat = (lenField w).toNat := by
  rw [toNat_lenField, BitVec.toNat_ushiftRight, Nat.shiftRight_eq_div_pow]

/-! ## Decoding keeps both fields -/

theorem opcode_ofFields (op : BitVec 3) (len : Nat) : opcode (ofFields op len) = op := by
  obtain ⟨value⟩ := op
  fin_cases value <;> rfl

theorem len_ofFields (op : BitVec 3) (len : Nat) : (ofFields op len).len = len := by
  unfold ofFields
  split <;> rfl

theorem opcode_decodeWord (w : BitVec 8) : opcode (decodeWord w) = opField w := opcode_ofFields _ _

theorem len_decodeWord (w : BitVec 8) : (decodeWord w).len = (lenField w).toNat := len_ofFields _ _

/-- No word decodes to a `len` beyond the five bits of its field. -/
theorem wf_decodeWord (w : BitVec 8) : (decodeWord w).wf = true := by
  rw [Instr.wf, len_decodeWord]
  exact decide_eq_true (lenField w).isLt

/-- A word under the mask `0x07` gives its operation, and the word shifted by three its `len` (R80). -/
theorem decodeWord_of_masked {w m : BitVec 8} (h : w &&& 0x07 = m) :
    decodeWord w = ofFields (m.setWidth 3) (w >>> 3).toNat := by
  rw [← h, setWidth_masked, toNat_shiftRight_three, decodeWord]

/-! ## Decoding and encoding undo each other -/

theorem decodeWord_encode {i : Instr} (h : i.wf = true) : decodeWord (encode i) = i := by
  cases i with
  | nop n => exact Laws.EncodeDecodes.nop n h
  | setKey n => exact Laws.EncodeDecodes.setKey n h
  | setIv n => exact Laws.EncodeDecodes.setIv n h
  | update n => exact Laws.EncodeDecodes.update n h
  | encrypt n => exact Laws.EncodeDecodes.encrypt n h
  | decrypt n => exact Laws.EncodeDecodes.decrypt n h
  | digest n => exact Laws.EncodeDecodes.digest n h
  | reserved n => exact Laws.EncodeDecodes.reserved n h

/-- An opcode-table word of eight bits decodes as the command word it is (R60). -/
theorem decodeTableWord_toNat (w : BitVec 8) : decodeTableWord 8 w.toNat = some (decodeWord w) := by
  rw [decodeTableWord, Nat.mod_eq_of_lt w.isLt, BitVec.ofNat_toNat, BitVec.setWidth_eq]

/-- `word = (len << 3) | op` as a number (R61). -/
theorem encode_toNat {i : Instr} (h : i.wf = true) : (encode i).toNat = i.len * 2 ^ 3 + (opcode i).toNat := by
  rw [word_toNat (encode i), ← len_decodeWord, ← opcode_decodeWord, decodeWord_encode h]

theorem encode_decodeWord (w : BitVec 8) : encode (decodeWord w) = w := by
  apply BitVec.eq_of_toNat_eq
  rw [encode_toNat (wf_decodeWord w), len_decodeWord, opcode_decodeWord, ← word_toNat]

/-! ## How many words decode to an operation with a property -/

/-- The instructions of one `len`, in the order of their words. -/
def instrsOfLen (n : Nat) : List Instr :=
  [.nop n, .setKey n, .setIv n, .update n, .encrypt n, .decrypt n, .digest n, .reserved n]

theorem decodeWord_ofNat {n op : Nat} (hn : n < 32) (hop : op < 8) :
    decodeWord (BitVec.ofNat 8 (8 * n + op)) = ofFields (BitVec.ofNat 3 op) n := by
  have hw : (BitVec.ofNat 8 (8 * n + op)).toNat = 8 * n + op := Nat.mod_eq_of_lt (by omega)
  have hfield : opField (BitVec.ofNat 8 (8 * n + op)) = BitVec.ofNat 3 op := by
    apply BitVec.eq_of_toNat_eq
    rw [toNat_opField, hw, BitVec.toNat_ofNat]
    omega
  have hlen : (lenField (BitVec.ofNat 8 (8 * n + op))).toNat = n := by
    rw [toNat_lenField, hw]
    omega
  rw [decodeWord, hfield, hlen]

/-- The eight words of one `len` decode to its eight instructions. -/
theorem map_decodeWord_ofLen {n : Nat} (hn : n < 32) :
    (List.range 8).map (fun op => decodeWord (BitVec.ofNat 8 (8 * n + op))) = instrsOfLen n :=
  List.map_congr_left fun _ hop => decodeWord_ofNat hn (List.mem_range.1 hop)

/-- The words in their order decode to the instructions of `len` 0, of `len` 1, and so on. -/
theorem map_decodeWord_range {m : Nat} (hm : m ≤ 32) :
    (List.range (8 * m)).map (fun w => decodeWord (BitVec.ofNat 8 w)) = (List.range m).flatMap instrsOfLen := by
  induction m with
  | zero => rfl
  | succ m ih =>
    rw [Nat.mul_succ, List.range_add, List.map_append, List.map_map, ih (by omega), List.range_succ (n := m),
      List.flatMap_append, List.flatMap_singleton]
    exact congrArg _ (map_decodeWord_ofLen (by omega))

/-- How many values of `len` have a property. -/
def countLens (q : Nat → Bool) : Nat := (List.range 32).countP q

/-- A property of the words is counted operation by operation. -/
theorem countWords_eq_sum (p : Instr → Bool) :
    countWords p =
      countLens (fun n => p (.nop n)) + countLens (fun n => p (.setKey n)) + countLens (fun n => p (.setIv n)) +
      countLens (fun n => p (.update n)) + countLens (fun n => p (.encrypt n)) + countLens (fun n => p (.decrypt n)) +
      countLens (fun n => p (.digest n)) + countLens (fun n => p (.reserved n)) := by
  have hcount : countWords p = ((List.range 32).flatMap instrsOfLen).countP p := by
    rw [← map_decodeWord_range le_rfl, List.countP_map, countWords, ← List.countP_eq_length_filter]
    rfl
  rw [hcount]
  unfold countLens
  induction List.range 32 with
  | nil => rfl
  | cons n ns ih =>
    rw [List.flatMap_cons, List.countP_append, ih]
    simp only [instrsOfLen, List.countP_cons, List.countP_nil]
    omega

@[simp] theorem countLens_true : countLens (fun _ => true) = 32 := by decide

@[simp] theorem countLens_false : countLens (fun _ => false) = 0 := by decide

@[simp] theorem countLens_not (q : Nat → Bool) : countLens (fun n => !q n) = 32 - countLens q := by
  have htotal := List.length_eq_countP_add_countP q (l := List.range 32)
  rw [List.length_range] at htotal
  simp only [countLens, Bool.not_eq_true, Bool.decide_eq_false] at htotal ⊢
  omega

/-- SET_KEY has one legal `len` (R63). -/
@[simp] theorem countLens_zero : countLens (fun n => decide (n = 0)) = 1 := by decide

/-- SET_IV has one legal `len` (R63). -/
@[simp] theorem countLens_eq_B (I : Inst) : countLens (fun n => decide (n = I.B)) = 1 := by
  cases I <;> decide

/-- A data command and DIGEST have `B + 1` legal values of `len` (R63). -/
@[simp] theorem countLens_le_B (I : Inst) : countLens (fun n => decide (n ≤ I.B)) = I.B + 1 := by
  cases I <;> decide

/-- The words with an illegal `len`: all but one of SET_KEY's and of SET_IV's 32, and `31 - B` for each of the other four
operations that check it (R69). -/
theorem countWords_illegal (I : Inst) :
    countWords (fun i => opcode i != 7 && !lenLegal I i) = 62 + 4 * (31 - I.B) := by
  calc
    countWords _ = 31 + 31 + (31 - I.B) + (31 - I.B) + (31 - I.B) + (31 - I.B) := by
      simp [countWords_eq_sum, opcode, lenLegal]
    _ = 62 + 4 * (31 - I.B) := by omega

/-- The rejected words are those with an illegal `len` and the 32 reserved ones (R69). -/
theorem countWords_rejected (I : Inst) : countWords (fun i => !lenLegal I i) = 62 + 4 * (31 - I.B) + 32 := by
  calc
    countWords _ = 31 + 31 + (31 - I.B) + (31 - I.B) + (31 - I.B) + (31 - I.B) + 32 := by
      simp [countWords_eq_sum, lenLegal]
    _ = 62 + 4 * (31 - I.B) + 32 := by omega

/-! ## The `key_valid` bit of the response word -/

/-- Bit 12 of a response word is `key_valid` (R71). -/
theorem rspWord_getLsbD_12 (st : Status) {len : Nat} (hlen : len < 32) (p : Phase) (k e : Bool) :
    (rspWord st len p k e).getLsbD 12 = k := by
  have hword := rspWord_toNat st hlen p k e
  have hst := statusCode_le st
  have hp := phaseCode_le p
  have hbit : (rspWord st len p k e).toNat / 2 ^ 12 % 2 = k.toNat := by
    have hk := k.toNat_lt
    omega
  rw [BitVec.getLsbD, Nat.testBit_eq_decide_div_mod_eq, hbit]
  cases k <;> rfl

end Sys2Proof.Machine
end

section
/-!
SUPPORT. What a command reads of the command buffer (spec/30_encoding.md R64, R65, spec/20_memory.md R47,
spec/40_block_primitives.md R99): its checks read nothing of it, its work the operand alone, and its response empties it.
-/

namespace Sys2Proof.Machine

variable {I : Inst}

/-- The two blocks of a nonce that SET_IV uses differ in the discriminator bit only (R99). -/
theorem discrimY_eq_of_discrimZ (n : Block I) : discrimY n = discrimZ n &&& ~~~ discrimBit I := by
  ext i hi
  simp only [discrimY, discrimZ, BitVec.getElem_and, BitVec.getElem_or, BitVec.getElem_not]
  cases n[i] <;> cases (discrimBit I)[i] <;> rfl

/-- Two commands whose `data` and `key` fields agree where the operation reads them (R64, R65, R99). -/
def SameOperand (m m' : Cmd I) : Instr → Prop
  | .nop _ => True
  | .setKey _ => m.key = m'.key
  | .setIv _ => discrimZ m.data = discrimZ m'.data
  | .update n => trunc m.data n = trunc m'.data n
  | .encrypt n => trunc m.data n = trunc m'.data n
  | .decrypt n => trunc m.data n = trunc m'.data n
  | .digest _ => True
  | .reserved _ => True

/-- No check reads the command buffer. -/
theorem verdict_withCmd (c : CoreState I) (m : Cmd I) (i : Instr) : verdict { c with cmd := m } i = verdict c i := by
  cases i <;> rfl

/-- A response empties the command buffer, whatever it held. -/
theorem respond_withCmd (st : Status) (len : Nat) (data : Block I) (c : CoreState I) (m : Cmd I) :
    respond st len data { c with cmd := m } = respond st len data c := rfl

theorem reject_withCmd (st : Status) (c : CoreState I) (m : Cmd I) : reject st { c with cmd := m } = reject st c := rfl

/-- The operand of a data command is all its output reads of the buffer. -/
theorem streamOut_withCmd (E : Cipher) (c : CoreState I) {m m' : Cmd I} {n : Nat} (h : trunc m.data n = trunc m'.data n) :
    streamOut E n { c with cmd := m } = streamOut E n { c with cmd := m' } :=
  congrArg (xorBytes · (trunc (ciph E c c.Y) n)) h

/-- Two commands with one operand do the same work, up to the buffer itself. -/
theorem work_of_sameOperand (E : Cipher) (c : CoreState I) {m m' : Cmd I} {i : Instr} (h : SameOperand m m' i) :
    work E { c with cmd := m } i = { work E { c with cmd := m' } i with cmd := m } := by
  cases i with
  | nop n | digest n | reserved n => rfl
  | setKey n =>
    have hkey : keyOperand { c with cmd := m } = keyOperand { c with cmd := m' } := h
    simp only [work, loadKey, hkey]
    rfl
  | setIv n =>
    have hZ : discrimZ (nonceOperand { c with cmd := m }) = discrimZ (nonceOperand { c with cmd := m' }) := h
    have hY : discrimY (nonceOperand { c with cmd := m }) = discrimY (nonceOperand { c with cmd := m' }) := by
      rw [discrimY_eq_of_discrimZ, hZ, ← discrimY_eq_of_discrimZ]
    simp only [work, startSession, hY, hZ]
    rfl
  | update n | decrypt n =>
    have hdata : dataOperand n { c with cmd := m } = dataOperand n { c with cmd := m' } := h
    simp only [work, absorb, decryptBlock, hdata]
    split <;> rfl
  | encrypt n =>
    simp only [work, encryptBlock, streamOut_withCmd E c h]
    split <;> rfl

theorem answerData_of_sameOperand (E : Cipher) (c : CoreState I) {m m' : Cmd I} {i : Instr} (h : SameOperand m m' i) :
    answerData E { c with cmd := m } i = answerData E { c with cmd := m' } i := by
  cases i with
  | encrypt n | decrypt n => simp only [answerData, streamOut_withCmd E c h]
  | nop n | setKey n | setIv n | update n | digest n | reserved n => rfl

/-- Two commands with one operand leave the same state: the checks do not see the difference, the work keeps it in the
buffer, and the response or the rejection drops it. -/
theorem commandState_of_sameOperand (E : Cipher) (c : CoreState I) {m m' : Cmd I} {i : Instr}
    (h : SameOperand m m' i) : commandState E { c with cmd := m } i = commandState E { c with cmd := m' } i := by
  have hacc : acceptedState E { c with cmd := m } i = acceptedState E { c with cmd := m' } i := by
    rw [acceptedState, work_of_sameOperand E c h, answerData_of_sameOperand E c h, respond_withCmd, acceptedState]
  simp only [commandState, conclude, verdict_withCmd, reject_withCmd, hacc]

end Sys2Proof.Machine
end

section
/-! SUPPORT. The statements of spec/30_encoding.md, each settled by the lemmas above. -/

namespace Sys2Proof.Machine

/-- Settles O1: the eight constructors' lemmas of the word, and the table word is the same word. -/
theorem encodedInstructionDecodesToItself : Obligations.EncodedInstructionDecodesToItself := by
  intro i h
  exact ⟨decodeWord_encode h, by rw [decodeTableWord_toNat, decodeWord_encode h]⟩

/-- Settles O28: the commands' operands agree, so their states do. -/
theorem unusedCommandLanesAreIgnored : Obligations.UnusedCommandLanesAreIgnored := by
  intro I c m m' i h
  have hop : SameOperand m m' i := by cases i <;> exact h
  rw [exec_eq, exec_eq, commandState_of_sameOperand _ c hop]

/-- Settles O2: decoding keeps both fields, and a word is its two fields side by side. -/
theorem commandWordIsOpAndLen : Obligations.CommandWordIsOpAndLen :=
  ⟨fun w => ⟨opcode_decodeWord w, len_decodeWord w, encode_decodeWord w⟩, fun _ => encode_toNat⟩

/-- Settles O3: each row is `decodeWord_of_masked` at its own match value. -/
theorem wordsMatchTheCommandTable : Obligations.WordsMatchTheCommandTable := fun _ =>
  ⟨decodeWord_of_masked, decodeWord_of_masked, decodeWord_of_masked, decodeWord_of_masked, decodeWord_of_masked,
    decodeWord_of_masked, decodeWord_of_masked, decodeWord_of_masked⟩

/-- Settles O4: fourteen words, each evaluated. -/
theorem workedEncodingsDecode : Obligations.WorkedEncodingsDecode := by
  unfold Obligations.WorkedEncodingsDecode
  decide

/-- Settles O5: the mask keeps the `op` field, and each count is taken operation by operation over the 32 values of
`len`. -/
theorem countsOfLegalAndRejectedWords : Obligations.CountsOfLegalAndRejectedWords := by
  refine ⟨fun v w h => ?_, fun I => ⟨?nop, ?setKey, ?setIv, fun op hop => ?data, ?reserved, ?illegal, ?rejected⟩⟩
  · rw [opcode_decodeWord, opcode_decodeWord, ← setWidth_masked, h, setWidth_masked]
  case data =>
    obtain rfl | rfl | rfl | rfl : op = 3 ∨ op = 4 ∨ op = 5 ∨ op = 6 := by simpa using hop
    all_goals simp [countWords_eq_sum, opcode, lenLegal]
  case illegal => rw [countWords_illegal]; cases I <;> rfl
  case rejected => rw [countWords_rejected]; cases I <;> rfl
  case nop | setKey | setIv | reserved => simp [countWords_eq_sum, opcode, lenLegal]

/-- Settles O6: the codes by their tables, the fields as `rspWord_toNat` places them. -/
theorem responseWordFields : Obligations.ResponseWordFields := by
  refine ⟨by decide, by decide, fun st len p kv es hlen => ?_⟩
  obtain ⟨hst, hl, hp, hres⟩ := rspWord_fields st hlen p kv es
  exact ⟨hst, hl, hp, rspWord_getLsbD_12 st hlen p kv es, rspWord_getLsbD_13 st hlen p kv es, hres⟩

end Sys2Proof.Machine
end

section
/-!
SUPPORT. The block primitives on bytes and on integers: PAD and TRUNC (spec/40_block_primitives.md R96, R97), the
discriminator bit (R99), and the two half-block counters and the trailer (R94, R95, R98, R100).
-/

namespace Sys2Proof.Machine

variable {I : Inst}

/-! ## Bytes -/

theorem toBytes_pad {s : List Byte} (h : s.length ≤ I.B) : toBytes (pad s : Block I) = s ++ zeros (I.B - s.length) :=
  toBytes_ofBytes (by rw [List.length_append, length_zeros, Nat.add_sub_cancel' h])

@[simp] theorem pad_toBytes (b : Block I) : pad (toBytes b) = b := by
  simp [pad, zeros]

theorem trunc_B (b : Block I) : trunc b I.B = toBytes b := List.take_of_length_le (length_toBytes b).le

theorem byteAt_and (a b : Block I) (i : Nat) : byteAt (a &&& b) i = byteAt a i &&& byteAt b i := BitVec.extractLsb'_and

theorem byteAt_or (a b : Block I) (i : Nat) : byteAt (a ||| b) i = byteAt a i ||| byteAt b i := BitVec.extractLsb'_or

theorem byteAt_xor (a b : Block I) (i : Nat) : byteAt (a ^^^ b) i = byteAt a i ^^^ byteAt b i := BitVec.extractLsb'_xor

theorem toBytes_xor (a b : Block I) : toBytes (a ^^^ b) = xorBytes (toBytes a) (toBytes b) := by
  simp [toBytes, xorBytes, List.zipWith_map, List.zipWith_self, byteAt_xor]

/-- The first byte of a block stands apart from the others. -/
theorem toBytes_eq_cons (b : Block I) :
    toBytes b = byteAt b 0 :: (List.range (I.B - 1)).map fun i => byteAt b (i + 1) := by
  rw [toBytes, ← Nat.sub_add_cancel (inst_B_pos I), List.range_succ_eq_map, List.map_cons, List.map_map]
  rfl

theorem toBytes_eq_cons_drop {b n : Block I} (h : ∀ i < I.B - 1, byteAt b (i + 1) = byteAt n (i + 1)) :
    toBytes b = byteAt b 0 :: (toBytes n).drop 1 := by
  rw [toBytes_eq_cons b, toBytes_eq_cons n, List.drop_one, List.tail_cons]
  exact congrArg _ (List.map_congr_left fun i hi => h i (List.mem_range.1 hi))

/-! ## The discriminator bit -/

theorem byteAt_discrimBit_zero (I : Inst) : byteAt (discrimBit I) 0 = 0x80 := by cases I <;> decide

theorem byteAt_discrimBit_succ (I : Inst) : ∀ i < I.B - 1, byteAt (discrimBit I) (i + 1) = 0 := by cases I <;> decide

theorem byteAt_not_discrimBit_zero (I : Inst) : byteAt (~~~ discrimBit I) 0 = 0x7F := by cases I <;> decide

theorem byteAt_not_discrimBit_succ (I : Inst) :
    ∀ i < I.B - 1, byteAt (~~~ discrimBit I) (i + 1) = BitVec.allOnes 8 := by
  cases I <;> decide

theorem discrimBit_ne_zero (I : Inst) : discrimBit I ≠ 0 := by cases I <;> decide

theorem toBytes_discrimY (n : Block I) : toBytes (discrimY n) = (byteAt n 0 &&& 0x7F) :: (toBytes n).drop 1 := by
  rw [toBytes_eq_cons_drop (n := n), discrimY, byteAt_and, byteAt_not_discrimBit_zero]
  intro i hi
  rw [discrimY, byteAt_and, byteAt_not_discrimBit_succ I i hi, BitVec.and_allOnes]

theorem toBytes_discrimZ (n : Block I) : toBytes (discrimZ n) = (byteAt n 0 ||| 0x80) :: (toBytes n).drop 1 := by
  rw [toBytes_eq_cons_drop (n := n), discrimZ, byteAt_or, byteAt_discrimBit_zero]
  intro i hi
  rw [discrimZ, byteAt_or, byteAt_discrimBit_succ I i hi]; exact BitVec.or_zero

theorem discrimY_xor_discrimZ (n : Block I) : discrimY n ^^^ discrimZ n = discrimBit I := by
  ext i hi
  simp only [discrimY, discrimZ, BitVec.getElem_xor, BitVec.getElem_and, BitVec.getElem_or, BitVec.getElem_not]
  cases n[i] <;> cases (discrimBit I)[i] <;> rfl

theorem discrimY_ne_discrimZ (n : Block I) : discrimY n ≠ discrimZ n := fun h =>
  discrimBit_ne_zero I (by rw [← discrimY_xor_discrimZ n, h, BitVec.xor_self]; rfl)

/-! ## The two halves as integers -/

theorem toNat_append_halves (a b : BitVec (8 * I.HB)) : (a ++ b).toNat = a.toNat * 2 ^ (8 * I.HB) + b.toNat := by
  rw [BitVec.toNat_append, ← Nat.shiftLeft_add_eq_or_of_lt b.isLt, Nat.shiftLeft_eq]

theorem toNat_firstHalf (b : Block I) : (firstHalf b).toNat = b.toNat / 2 ^ (8 * I.HB) := by
  rw [firstHalf, BitVec.extractLsb'_toNat, Nat.shiftRight_eq_div_pow, Nat.mod_eq_of_lt]
  exact Nat.div_lt_of_lt_mul (by rw [← pow_add]; exact b.isLt)

theorem toNat_secondHalf (b : Block I) : (secondHalf b).toNat = b.toNat % 2 ^ (8 * I.HB) := by
  rw [secondHalf, BitVec.extractLsb'_toNat, Nat.shiftRight_zero]

/-- A half-block counter adds one modulo `2^(8·HB)`. -/
theorem toNat_half_add_one (x : BitVec (8 * I.HB)) : (x + 1).toNat = (x.toNat + 1) % 2 ^ (8 * I.HB) := by
  simp

theorem toNat_incrR (b : Block I) : (incrR b).toNat =
    b.toNat / 2 ^ (8 * I.HB) * 2 ^ (8 * I.HB) + (b.toNat % 2 ^ (8 * I.HB) + 1) % 2 ^ (8 * I.HB) := by
  rw [incrR, toNat_append_halves, toNat_half_add_one, toNat_firstHalf, toNat_secondHalf]

theorem toNat_incrL (b : Block I) : (incrL b).toNat =
    (b.toNat / 2 ^ (8 * I.HB) + 1) % 2 ^ (8 * I.HB) * 2 ^ (8 * I.HB) + b.toNat % 2 ^ (8 * I.HB) := by
  rw [incrL, toNat_append_halves, toNat_half_add_one, toNat_firstHalf, toNat_secondHalf]

theorem toNat_trailer (a d : BitVec 64) : (trailer a d : Block I).toNat =
    8 * a.toNat % 2 ^ (8 * I.HB) * 2 ^ (8 * I.HB) + 8 * d.toNat % 2 ^ (8 * I.HB) := by
  rw [trailer, toNat_append_halves, bitCount, bitCount, BitVec.toNat_ofNat, BitVec.toNat_ofNat]

/-! ## The period of the counters -/

theorem incrR_injective : Function.Injective (incrR : Block I → Block I) := fun a b h =>
  block_ext_halves (by simpa using congrArg firstHalf h) (by simpa using congrArg secondHalf h)

theorem incrL_injective : Function.Injective (incrL : Block I → Block I) := fun a b h =>
  block_ext_halves (by simpa using congrArg firstHalf h) (by simpa using congrArg secondHalf h)

theorem incrR_incrL (b : Block I) : incrR (incrL b) = incrL (incrR b) := block_ext_halves (by simp) (by simp)

/-- A half that each application of `f` advances by one is back after `2^(8·HB)` applications. -/
theorem iterate_half {f : Block I → Block I} {half : Block I → BitVec (8 * I.HB)}
    (h : Function.Semiconj half f (· + 1)) (b : Block I) : half (f^[2 ^ (8 * I.HB)] b) = half b := by
  have hround : (2 ^ (8 * I.HB)) • (1 : BitVec (8 * I.HB)) = 0 := by
    rw [nsmul_one]
    exact BitVec.eq_of_toNat_eq (by rw [BitVec.natCast_eq_ofNat, BitVec.toNat_ofNat, Nat.mod_self]; rfl)
  rw [(h.iterate_right _).eq b, add_right_iterate]
  exact (congrArg (half b + ·) hround).trans (BitVec.add_zero _)

theorem iterate_other_half {f : Block I → Block I} {half : Block I → BitVec (8 * I.HB)}
    (h : Function.Semiconj half f id) (k : Nat) (b : Block I) : half (f^[k] b) = half b := by
  rw [(h.iterate_right k).eq b, Function.iterate_id, id]

theorem incrR_iterate_period (b : Block I) : incrR^[2 ^ (8 * I.HB)] b = b :=
  block_ext_halves (iterate_other_half firstHalf_incrR _ b) (iterate_half secondHalf_incrR b)

theorem incrL_iterate_period (b : Block I) : incrL^[2 ^ (8 * I.HB)] b = b :=
  block_ext_halves (iterate_half firstHalf_incrL b) (iterate_other_half secondHalf_incrL _ b)

end Sys2Proof.Machine
end

section
/-!
SUPPORT. The polynomial of a block (spec/00_scope.md R13), the field polynomial (spec/40_block_primitives.md R92, R101)
and MULX as multiplication by x (R93). A polynomial is reasoned about by its coefficients, which are the block's bits.
-/

namespace Sys2Proof.Machine

open Polynomial

variable {I : Inst}

theorem inst_N_pos (I : Inst) : 0 < I.N := by cases I <;> decide

/-! ## The polynomial of a block -/

/-- Bit `k` of `int(b)` is the coefficient of `x^k`, for every `k`: a block has no bit from `N` up. -/
theorem coeff_polyOf (b : Block I) (k : Nat) : (polyOf b).coeff k = if b.getLsbD k then 1 else 0 := by
  have hterm (j : Nat) : (if b.getLsbD j then X ^ j else 0 : (ZMod 2)[X]).coeff k =
      if k = j then (if b.getLsbD j then 1 else 0) else 0 := by
    cases b.getLsbD j <;> simp [coeff_X_pow]
  rw [polyOf, finsetSum_coeff]
  simp only [hterm, Finset.sum_ite_eq, Finset.mem_range]
  rcases Nat.lt_or_ge k I.N with hk | hk
  · rw [if_pos hk]
  · rw [if_neg hk.not_gt, BitVec.getLsbD_of_ge b k hk, if_neg Bool.false_ne_true]

theorem degree_polyOf_lt (b : Block I) : (polyOf b).degree < I.N := by
  rw [degree_lt_iff_coeff_zero]
  intro k hk
  rw [coeff_polyOf, BitVec.getLsbD_of_ge b k hk, if_neg Bool.false_ne_true]

theorem polyOf_xor (a b : Block I) : polyOf (a ^^^ b) = polyOf a + polyOf b := by
  ext k
  rw [coeff_add, coeff_polyOf, coeff_polyOf, coeff_polyOf, BitVec.getLsbD_xor]
  cases a.getLsbD k <;> cases b.getLsbD k <;> decide

theorem polyOf_twoPow {j : Nat} (hj : j < I.N) : polyOf (BitVec.twoPow I.N j : Block I) = X ^ j := by
  ext k
  rw [coeff_polyOf, coeff_X_pow, BitVec.getLsbD_twoPow]
  simp [hj, eq_comm]

/-- The shift of MULX multiplies by x; the bit shifted out is the coefficient of `x^N` that it drops. -/
theorem polyOf_shiftLeft_one (b : Block I) :
    polyOf (b <<< 1) + (if b.msb then X ^ I.N else 0) = polyOf b * X := by
  have hN := inst_N_pos I
  have hmsb : b.msb = b.getLsbD (I.N - 1) := BitVec.msb_eq_getLsbD_last b
  ext k
  rw [coeff_add, coeff_polyOf, hmsb, apply_ite (coeff · k), coeff_X_pow, coeff_zero]
  cases k with
  | zero => simp [hN.ne]
  | succ k =>
    rw [coeff_mul_X, coeff_polyOf]
    rcases Nat.lt_trichotomy (k + 1) I.N with hk | hk | hk
    · simp [BitVec.getLsbD_shiftLeft, -BitVec.getLsbD_eq_getElem, hk, hk.ne]
    · simp [← hk]
    · simp [hk.not_gt, hk.ne', BitVec.getLsbD_of_ge b k (by omega)]

/-! ## The field polynomial -/

/-- A block with four bits set, one of them bit 0, as both reduction constants have. -/
theorem polyOf_four_bits {i j k : Nat} (hi : i < I.N) (hj : j < I.N) (hk : k < I.N) :
    polyOf (BitVec.twoPow I.N i ^^^ BitVec.twoPow I.N j ^^^ BitVec.twoPow I.N k ^^^ BitVec.twoPow I.N 0 : Block I) =
      X ^ i + X ^ j + X ^ k + 1 := by
  rw [polyOf_xor, polyOf_xor, polyOf_xor, polyOf_twoPow hi, polyOf_twoPow hj, polyOf_twoPow hk,
    polyOf_twoPow (inst_N_pos I), pow_zero]

/-! The equations of `fieldPoly` are proved by `delta`, which does not evaluate `x^N` as its generated equation does. -/

theorem fieldPoly_mgm : fieldPoly .mgm = X ^ 128 + X ^ 7 + X ^ 2 + X + 1 := by delta fieldPoly; rfl

theorem fieldPoly_mgm64 : fieldPoly .mgm64 = X ^ 64 + X ^ 4 + X ^ 3 + X + 1 := by delta fieldPoly; rfl

/-- The exponents of `f` between 0 and `N`, and RED as the bits in their places (R92, R101). -/
theorem fieldPoly_exponents (I : Inst) : ∃ i j k, i < I.N ∧ j < I.N ∧ k < I.N ∧
    red I = BitVec.twoPow I.N i ^^^ BitVec.twoPow I.N j ^^^ BitVec.twoPow I.N k ^^^ BitVec.twoPow I.N 0 ∧
    fieldPoly I = X ^ I.N + (X ^ i + X ^ j + X ^ k + 1) := by
  cases I with
  | mgm =>
    refine ⟨7, 2, 1, by decide, by decide, by decide, by decide, ?_⟩
    simp only [fieldPoly_mgm, Inst.N, Inst.HB, pow_one, add_assoc]
  | mgm64 =>
    refine ⟨4, 3, 1, by decide, by decide, by decide, by decide, ?_⟩
    simp only [fieldPoly_mgm64, Inst.N, Inst.HB, pow_one, add_assoc]

/-- RED is `f` without its leading term (R92, R101). -/
theorem fieldPoly_eq (I : Inst) : fieldPoly I = X ^ I.N + polyOf (red I) := by
  obtain ⟨i, j, k, hi, hj, hk, hred, hf⟩ := fieldPoly_exponents I
  rw [hf, hred, polyOf_four_bits hi hj hk]

theorem monic_fieldPoly (I : Inst) : (fieldPoly I).Monic := by
  rw [fieldPoly_eq]
  exact monic_X_pow_add (degree_polyOf_lt _)

theorem degree_fieldPoly (I : Inst) : (fieldPoly I).degree = I.N := by
  rw [fieldPoly_eq, degree_add_eq_left_of_degree_lt, degree_X_pow]
  rw [degree_X_pow]
  exact degree_polyOf_lt _

/-- A block's polynomial is reduced already. -/
theorem polyOf_modByMonic (b : Block I) : polyOf b %ₘ fieldPoly I = polyOf b := by
  rw [modByMonic_eq_self_iff (monic_fieldPoly I), degree_fieldPoly]
  exact degree_polyOf_lt b

/-! ## MULX -/

theorem mulx_eq (b : Block I) : mulx b = (b <<< 1) ^^^ if b.msb then red I else 0 := by
  rw [mulx]
  cases b.msb
  · exact BitVec.xor_zero.symm
  · rfl

theorem mulx_xor (a b : Block I) : mulx (a ^^^ b) = mulx a ^^^ mulx b := by
  have hred : (if (a ^^^ b).msb then red I else 0) = (if a.msb then red I else 0) ^^^ if b.msb then red I else 0 := by
    rw [BitVec.msb_xor]
    cases a.msb <;> cases b.msb <;> simp
  rw [mulx_eq, mulx_eq, mulx_eq, hred, BitVec.shiftLeft_xor_distrib]
  ac_rfl

theorem getLsbD_red_zero (I : Inst) : (red I).getLsbD 0 = true := by cases I <;> decide

/-- The bit that MULX shifts in is the bit it shifts out, because `f` has the constant term 1. -/
theorem getLsbD_mulx_zero (b : Block I) : (mulx b).getLsbD 0 = b.msb := by
  have hshift : (b <<< 1).getLsbD 0 = false := by simp
  rw [mulx_eq, BitVec.getLsbD_xor, hshift, Bool.false_xor]
  cases b.msb
  · exact BitVec.getLsbD_zero
  · exact getLsbD_red_zero I

theorem eq_zero_of_mulx {b : Block I} (h : mulx b = 0) : b = 0 := by
  have hmsb : b.msb = false := by rw [← getLsbD_mulx_zero, h]; exact BitVec.getLsbD_zero
  have hshift : (b <<< 1).toNat = 0 := by
    have hmulx : mulx b = b <<< 1 := by rw [mulx, hmsb]; rfl
    rw [← hmulx, h]
    rfl
  have hfit : 2 * b.toNat < 2 ^ I.N := BitVec.msb_eq_false_iff_two_mul_lt.1 hmsb
  rw [BitVec.toNat_shiftLeft, Nat.shiftLeft_eq, pow_one, Nat.mod_eq_of_lt (by omega)] at hshift
  exact BitVec.eq_of_toNat_eq (by simpa using hshift)

theorem mulx_injective : Function.Injective (mulx : Block I → Block I) := fun a b h =>
  BitVec.xor_eq_zero_iff.1 (eq_zero_of_mulx (by rw [mulx_xor, h, BitVec.xor_self]; rfl))

/-- Adding RED adds `f` less its leading term, which is the term the shift has dropped. -/
theorem polyOf_mulx_add (b : Block I) : polyOf (mulx b) + (if b.msb then fieldPoly I else 0) = polyOf b * X := by
  rw [← polyOf_shiftLeft_one, mulx]
  cases b.msb with
  | false => rfl
  | true =>
    have hred : polyOf (red I) + polyOf (red I) = 0 := CharTwo.add_self_eq_zero _
    simp only [if_true, polyOf_xor, fieldPoly_eq]
    linear_combination hred

/-- MULX multiplies by x modulo `f` (R93). -/
theorem polyOf_mulx (b : Block I) : polyOf (mulx b) = polyOf b * X %ₘ fieldPoly I := by
  have hmod : (if b.msb then fieldPoly I else 0) %ₘ fieldPoly I = 0 := by
    cases b.msb
    · exact zero_modByMonic _
    · exact modByMonic_self (monic_fieldPoly I)
  rw [← polyOf_mulx_add, add_modByMonic, hmod, polyOf_modByMonic, add_zero]

theorem polyOf_mulx_iterate (b : Block I) (k : Nat) : polyOf (mulx^[k] b) = polyOf b * X ^ k %ₘ fieldPoly I := by
  induction k with
  | zero => rw [Function.iterate_zero, id, pow_zero, mul_one, polyOf_modByMonic]
  | succ k ih =>
    calc polyOf (mulx^[k + 1] b) = polyOf (mulx^[k] b) * X %ₘ fieldPoly I := by
          rw [Function.iterate_succ_apply', polyOf_mulx]
      _ = (polyOf b * X ^ k %ₘ fieldPoly I) * (X %ₘ fieldPoly I) %ₘ fieldPoly I := by
          rw [mul_modByMonic, polyOf_modByMonic, ih]
      _ = polyOf b * X ^ (k + 1) %ₘ fieldPoly I := by rw [← mul_modByMonic, mul_assoc, ← pow_succ]

/-! ## GFMUL by a power of x -/

/-- GFMUL by a block with the one bit `j` takes the value `V` of that scan step (R110). -/
theorem gfAcc_twoPow (x : Block I) {j : Nat} (hj : j < I.N) (k : Nat) :
    gfAcc x (BitVec.twoPow I.N j) k = if j < k then gfV x j else 0 := by
  induction k with
  | zero => rfl
  | succ k ih =>
    rw [gfAcc_succ, ih, BitVec.getLsbD_twoPow]
    rcases Nat.lt_trichotomy j k with h | rfl | h
    · simp [h, h.ne, Nat.lt_succ_of_lt h]
    · simp [hj]
    · simp [h.not_gt, h.ne', Nat.not_lt.2 (Nat.succ_le_of_lt h)]

theorem gfmul_twoPow (x : Block I) {j : Nat} (hj : j < I.N) : gfmul x (BitVec.twoPow I.N j) = gfV x j := by
  rw [gfmul, gfAcc_twoPow x hj, if_pos hj]

theorem mulx_eq_gfmul_two (b : Block I) : mulx b = gfmul b (BitVec.ofNat I.N 2) := by
  have htwo : BitVec.ofNat I.N 2 = BitVec.twoPow I.N 1 := by cases I <;> rfl
  have hN : 1 < I.N := by cases I <;> decide
  rw [htwo, gfmul_twoPow b hN, gfV_succ, gfV_zero]

end Sys2Proof.Machine
end

section
/-! SUPPORT. The statements of spec/40_block_primitives.md, each settled by the lemmas above. -/

namespace Sys2Proof.Machine

/-- Settles O33: a padded sequence has `B` bytes, and bytes of that number are a block's own. -/
theorem padAndTruncateOnBytes : Obligations.PadAndTruncateOnBytes := fun _ =>
  ⟨fun _ => toBytes_pad, fun _ => trunc_pad, fun b => ⟨pad_toBytes b, beNat_toBytes b⟩,
    fun b => ⟨trunc_B b, List.take_zero⟩⟩

/-- Settles O34: a block's integer is its two halves side by side. -/
theorem incrementsAddOneToOneHalf : Obligations.IncrementsAddOneToOneHalf := fun _ b => ⟨toNat_incrR b, toNat_incrL b⟩

/-- Settles O35: each increment moves one half round its `2^(8·HB)` values and keeps the other. -/
theorem incrementsAreCyclicAndCommute : Obligations.IncrementsAreCyclicAndCommute := fun _ =>
  ⟨Finite.injective_iff_bijective.1 incrR_injective, Finite.injective_iff_bijective.1 incrL_injective, incrR_incrL,
    incrR_iterate_period, incrL_iterate_period⟩

/-- Settles O36: the bit stands in the first byte alone, and DISCRIM_Y is a function of DISCRIM_Z. -/
theorem discriminatorBitOfTheNonce : Obligations.DiscriminatorBitOfTheNonce := by
  intro I n
  refine ⟨toBytes_discrimY n, toBytes_discrimZ n, discrimY_xor_discrimZ n, discrimY_ne_discrimZ n, fun m h => ?_⟩
  have hZ : discrimZ m = discrimZ n := h
  exact ⟨by rw [discrimY_eq_of_discrimZ, hZ, ← discrimY_eq_of_discrimZ], hZ⟩

/-- Settles O39: byte by byte, and coefficient by coefficient. -/
theorem xorIsBytewiseAndAdditionOfPolynomials : Obligations.XorIsBytewiseAndAdditionOfPolynomials := fun _ a b =>
  ⟨toBytes_xor a b, polyOf_xor a b⟩

/-- Settles O44: an injective map of the finitely many blocks is a bijection; `blk(2)` is the one bit 1. -/
theorem mulxIsMultiplicationByX : Obligations.MulxIsMultiplicationByX := fun _ =>
  ⟨mulx_xor, Finite.injective_iff_bijective.1 mulx_injective, mulx_eq_gfmul_two, polyOf_mulx_iterate⟩

/-- Settles O37: the two bit counts are the two halves. -/
theorem trailerHoldsTheBitCounts : Obligations.TrailerHoldsTheBitCounts := fun _ => toNat_trailer

end Sys2Proof.Machine
end

section
/-!
SUPPORT. GFMUL on polynomials (spec/41_gf_hasher.md R110, R116): its scan adds `poly(x) · x^k` modulo `f` for every bit
`k` of `y`, and a block is fixed by its polynomial, so that the laws of polynomials modulo `f` become laws of GFMUL.
-/

namespace Sys2Proof.Machine

open Polynomial

variable {I : Inst}

/-- A block's bits can be read off its polynomial (R13). -/
theorem getLsbD_eq_coeff (b : Block I) (k : Nat) : b.getLsbD k = decide ((polyOf b).coeff k = 1) := by
  rw [coeff_polyOf]
  cases b.getLsbD k <;> decide

theorem polyOf_injective : Function.Injective (polyOf : Block I → (ZMod 2)[X]) := fun a b h =>
  BitVec.eq_of_getLsbD_eq fun k _ => by rw [getLsbD_eq_coeff, h, getLsbD_eq_coeff]

theorem polyOf_zero : polyOf (0 : Block I) = 0 := by
  ext k
  rw [coeff_polyOf, coeff_zero]
  exact if_neg (by simp)

/-- `V` before scan step `k` is `x · x^k` (R110). -/
theorem gfV_eq_mulx_iterate (x : Block I) (k : Nat) : gfV x k = mulx^[k] x := by
  induction k with
  | zero => rfl
  | succ k ih => rw [gfV_succ, ih, Function.iterate_succ_apply']

/-- After `n` scan steps `acc` is the product with the low `n` bits of `y` (R110). -/
theorem polyOf_gfAcc (x y : Block I) (n : Nat) :
    polyOf (gfAcc x y n) =
      polyOf x * (∑ k ∈ Finset.range n, if y.getLsbD k then X ^ k else 0) %ₘ fieldPoly I := by
  induction n with
  | zero => rw [gfAcc_zero, polyOf_zero, Finset.sum_range_zero, mul_zero, zero_modByMonic]
  | succ n ih =>
    rw [gfAcc_succ, Finset.sum_range_succ, mul_add, add_modByMonic, ← ih]
    cases y.getLsbD n with
    | false => simp
    | true => simp [polyOf_xor, gfV_eq_mulx_iterate, polyOf_mulx_iterate]

/-- GFMUL multiplies modulo `f` (R116). -/
theorem polyOf_gfmul (x y : Block I) : polyOf (gfmul x y) = polyOf x * polyOf y %ₘ fieldPoly I := polyOf_gfAcc x y I.N

theorem gfmul_comm (x y : Block I) : gfmul x y = gfmul y x :=
  polyOf_injective (by rw [polyOf_gfmul, polyOf_gfmul, mul_comm])

theorem xor_gfmul (a b y : Block I) : gfmul (a ^^^ b) y = gfmul a y ^^^ gfmul b y :=
  polyOf_injective (by
    rw [polyOf_gfmul, polyOf_xor, add_mul, add_modByMonic, polyOf_xor, polyOf_gfmul, polyOf_gfmul])

theorem gfmul_xor (y a b : Block I) : gfmul y (a ^^^ b) = gfmul y a ^^^ gfmul y b := by
  rw [gfmul_comm, xor_gfmul, gfmul_comm a, gfmul_comm b]

/-- The product of three blocks may be reduced once, at the end. -/
theorem polyOf_gfmul_gfmul (x y z : Block I) :
    polyOf (gfmul (gfmul x y) z) = polyOf x * polyOf y * polyOf z %ₘ fieldPoly I := by
  rw [polyOf_gfmul, mul_modByMonic (_ * _), ← polyOf_gfmul x y, polyOf_modByMonic]

theorem gfmul_assoc (x y z : Block I) : gfmul (gfmul x y) z = gfmul x (gfmul y z) :=
  polyOf_injective (by
    rw [gfmul_comm x (gfmul y z), polyOf_gfmul_gfmul, polyOf_gfmul_gfmul, mul_comm (_ * _) (polyOf x), mul_assoc])

/-- `blk(1)` has the one bit 0, whose scan step adds `x` itself. -/
theorem gfmul_one (x : Block I) : gfmul x (BitVec.ofNat I.N 1) = x := by
  rw [← BitVec.twoPow_zero, gfmul_twoPow x (inst_N_pos I), gfV_zero]

theorem gfmul_zero (x : Block I) : gfmul x 0 = 0 :=
  polyOf_injective (by rw [polyOf_gfmul, polyOf_zero, mul_zero, zero_modByMonic])

end Sys2Proof.Machine
end

section
/-!
SUPPORT. The source's `update(bytes)` (spec/42_mgm_commands.md R151): how a buffer is cut into pieces, what one UPDATE of
a piece leaves, and by induction on the pieces what the whole call leaves (spec/41_gf_hasher.md R115).
-/

namespace Sys2Proof.Machine

variable {I : Inst}

/-! ## The pieces of a buffer -/

@[simp] theorem chunks_nil (I : Inst) : chunks I [] = [] := by simp [chunks]

/-- A buffer of less than a block is its own only piece. -/
theorem chunks_of_length_lt {s : List Byte} (hne : s ≠ []) (hlt : s.length < I.B) : chunks I s = [s] := by
  simp [chunks, Nat.div_eq_of_lt hlt, Nat.mod_eq_of_lt hlt, hne]

/-- The first whole block of a buffer is its first piece. -/
theorem chunks_of_B_le {s : List Byte} (hle : I.B ≤ s.length) : chunks I s = s.take I.B :: chunks I (s.drop I.B) := by
  have hdiv : s.length / I.B = (s.drop I.B).length / I.B + 1 := by
    rw [List.length_drop, Nat.div_eq_sub_div (inst_B_pos I) hle]
  have hmod : s.length % I.B = (s.drop I.B).length % I.B := by
    rw [List.length_drop, Nat.mod_eq_sub_mod hle]
  have hmodle := Nat.mod_le (s.drop I.B).length I.B
  have hrest : s.length - s.length % I.B = I.B + ((s.drop I.B).length - (s.drop I.B).length % I.B) := by
    rw [hmod, ← Nat.add_sub_assoc hmodle, List.length_drop, Nat.add_sub_cancel' hle]
  rw [chunks, chunks, hdiv, hrest, hmod, List.range_succ_eq_map]
  simp [List.drop_drop, Nat.succ_mul, Nat.add_comm, Function.comp_def]

/-- A buffer's first piece is its first `B` bytes, or all there are; the others are those of the rest (R151). -/
theorem chunks_eq_cons {s : List Byte} (hne : s ≠ []) : chunks I s = s.take I.B :: chunks I (s.drop I.B) := by
  rcases Nat.lt_or_ge s.length I.B with hlt | hle
  · rw [chunks_of_length_lt hne hlt, List.take_of_length_le hlt.le, List.drop_eq_nil_of_le hlt.le, chunks_nil]
  · exact chunks_of_B_le hle

theorem chunks_of_length_le {s : List Byte} (hne : s ≠ []) (hle : s.length ≤ I.B) : chunks I s = [s] := by
  rw [chunks_eq_cons hne, List.take_of_length_le hle, List.drop_eq_nil_of_le hle, chunks_nil]

theorem take_B_ne_nil (I : Inst) {s : List Byte} (hne : s ≠ []) : s.take I.B ≠ [] := by
  simp [hne, (inst_B_pos I).ne']

/-- Induction on a buffer piece by piece. -/
theorem pieces_induction (I : Inst) {P : List Byte → Prop} (nil : P [])
    (cons : ∀ s, s ≠ [] → P (s.drop I.B) → P s) (s : List Byte) : P s := by
  induction hn : s.length using Nat.strong_induction_on generalizing s with
  | _ n ih =>
    by_cases hne : s = []
    · exact hne ▸ nil
    · have hB := inst_B_pos I
      have hpos := List.length_pos_iff.2 hne
      exact cons s hne (ih _ (by rw [List.length_drop]; omega) _ rfl)

/-- Byte counts add up modulo `2^64` (R24). -/
theorem size64_append (a b : List Byte) : size64 (a ++ b) = size64 a + size64 b := by
  rw [size64, List.length_append, BitVec.ofNat_add]; rfl

/-- A whole block keeps a stream aligned: `B` divides `2^64`, so also across the counter's wrap (R25, R48). -/
theorem addSize_B_mod (size : BitVec 64) : (addSize size I.B).toNat % I.B = size.toNat % I.B := by
  have hdvd : I.B ∣ 2 ^ 64 := by cases I <;> decide
  rw [addSize_toNat, Nat.mod_mod_of_dvd _ hdvd, Nat.add_mod_right]

theorem hashOf_singleton (E : Cipher) (k : Key) (z M : Block I) : hashOf E k z [M] = gfmul (E I k z) M :=
  BitVec.xor_zero

/-! ## What the host reads -/

/-- A response with `len = 0` carries no byte (R74). -/
theorem rspBytes_rspWord_zero (st : Status) (p : Phase) (k e : Bool) (data : Block I) :
    rspBytes ⟨rspWord st 0 p k e, data⟩ = [] := by
  obtain ⟨-, hlen, -⟩ := rspWord_fields st (by decide : 0 < 32) p k e
  simp [rspBytes, hlen, trunc]

/-! ## What the call leaves -/

/-- What `update(s)` on a core `c` leaves in `t`: `sum`, `Z`, `authSize` and the phase in closed form, the registers of
other writers as they were, and no byte returned (R115, R151). -/
structure AfterUpdate (E : Cipher) (s : List Byte) (c t : CoreState I) : Prop where
  sum : t.sum = c.sum ^^^ hashOf E c.K c.Z ((chunks I s).map pad)
  Z : t.Z = zAfter c.Z (chunks I s).length
  authSize : t.authSize = c.authSize + size64 s
  phase : t.phase = if s = [] then c.phase else .ad
  Y : t.Y = c.Y
  dataSize : t.dataSize = c.dataSize
  K : t.K = c.K
  keyValid : t.keyValid = c.keyValid
  errSticky : t.errSticky = c.errSticky
  output : outputBytes t.trace = outputBytes c.trace

namespace AfterUpdate

theorem nil (E : Cipher) (c : CoreState I) : AfterUpdate E [] c c := by
  constructor <;> simp [hashOf, zAfter, size64]

/-- The first piece and then the rest make the whole. -/
theorem cons {E : Cipher} {s : List Byte} {c d t : CoreState I} (hne : s ≠ [])
    (hfirst : AfterUpdate E (s.take I.B) c d) (hrest : AfterUpdate E (s.drop I.B) d t) : AfterUpdate E s c t := by
  have htake := take_B_ne_nil I hne
  have hsingle : chunks I (s.take I.B) = [s.take I.B] := chunks_of_length_le htake (List.length_take_le _ _)
  have hdphase : d.phase = .ad := by rw [hfirst.phase, if_neg htake]
  have hsum : d.sum = c.sum ^^^ gfmul (E I c.K c.Z) (pad (s.take I.B)) := by
    rw [hfirst.sum, hsingle, List.map_singleton, hashOf_singleton]
  have hZ : d.Z = incrL c.Z := by rw [hfirst.Z, hsingle]; rfl
  exact {
    sum := by rw [hrest.sum, hsum, hfirst.K, hZ, chunks_eq_cons hne, List.map_cons, hashOf, BitVec.xor_assoc]
    Z := by rw [hrest.Z, hZ, chunks_eq_cons hne, List.length_cons, zAfter]
    authSize := by
      rw [hrest.authSize, hfirst.authSize, BitVec.add_assoc, ← size64_append, List.take_append_drop]
    phase := by rw [hrest.phase, hdphase, ite_self, if_neg hne]
    Y := hrest.Y.trans hfirst.Y
    dataSize := hrest.dataSize.trans hfirst.dataSize
    K := hrest.K.trans hfirst.K
    keyValid := hrest.keyValid.trans hfirst.keyValid
    errSticky := hrest.errSticky.trans hfirst.errSticky
    output := hrest.output.trans hfirst.output }

end AfterUpdate

/-! ## One UPDATE -/

/-- A whole or partial piece is accepted where no data byte was processed and the stream stands at a block boundary
(R131, R133). -/
theorem verdict_update_ok {c : CoreState I} {n : Nat} (hphase : c.phase ∈ [Phase.ivset, .ad])
    (halign : c.authSize.toNat % I.B = 0) (hn : n ≤ I.B) : verdict c (.update n) = .ok :=
  verdict_eq_ok_iff.2
    ⟨(by decide : (3 : BitVec 3) ≠ 7), decide_eq_true hn, rfl, decide_eq_true hphase, decide_eq_true halign⟩

/-- The core after it has accepted and executed the command of a line. -/
def lineState (E : Cipher) (a : Asm I) (rest : List (Input I)) (c : CoreState I) : CoreState I :=
  commandState E (accept (assemble a) rest c) (decodeWord (assemble a).word)

/-- An accepted UPDATE absorbs the bytes of its line (R137). -/
theorem lineState_update (E : Cipher) {p : List Byte} {c : CoreState I} (rest : List (Input I)) (hne : p ≠ [])
    (hlen : p.length ≤ I.B) (hphase : c.phase ∈ [Phase.ivset, .ad]) (halign : c.authSize.toNat % I.B = 0) :
    lineState E (.update p) rest c = respond .ok 0 0
      { hashStep E (pad p) (accept (assemble (.update p)) rest c) with
        authSize := addSize c.authSize p.length
        phase := .ad } := by
  have hdecode : decodeWord (assemble (I := I) (.update p)).word = .update p.length :=
    decodeWord_encode (decide_eq_true (hlen.trans_lt (inst_B_lt I)))
  have hoperand : dataOperand p.length (accept (assemble (.update p)) rest c) = p := trunc_pad hlen
  have hok : verdict (accept (assemble (.update p)) rest c) (.update p.length) = .ok :=
    verdict_update_ok hphase halign hlen
  rw [lineState, hdecode, commandState_of_ok hok, acceptedState_update,
    if_neg (mt List.length_eq_zero_iff.1 hne), absorb, hoperand]
  rfl

/-- One UPDATE is the call on a buffer of one piece. -/
theorem afterUpdate_lineState (E : Cipher) {p : List Byte} {c : CoreState I} (rest : List (Input I)) (hne : p ≠ [])
    (hlen : p.length ≤ I.B) (hphase : c.phase ∈ [Phase.ivset, .ad]) (halign : c.authSize.toNat % I.B = 0) :
    AfterUpdate E p c (lineState E (.update p) rest c) := by
  rw [lineState_update E rest hne hlen hphase halign]
  have hsingle := chunks_of_length_le hne hlen
  constructor
  case sum => rw [hsingle, List.map_singleton, hashOf_singleton]; rfl
  case Z => rw [hsingle]; rfl
  case authSize => rfl
  case phase => exact (if_neg hne).symm
  case output => simp [outputBytes, eventBytes, rspBytes_rspWord_zero]
  all_goals rfl

/-! ## The run of the call -/

theorem run_succ_of_next {M : Host.Core} {s s' : M.State} (h : M.step s = .next s') (k : Nat) :
    M.run (k + 1) s = M.run k s' := by
  rw [Host.Core.run, h]

/-- A run takes the first line off the host's list and goes on with the next. -/
theorem run_succ_of_line {c : CoreState I} {a : Asm I} {rest : List (Input I)} (h : c.inbox = .cmd (assemble a) :: rest)
    (k : Nat) : Host.Core.run core (k + 1) ⟨I, c⟩ = Host.Core.run core k ⟨I, lineState Config.E a rest c⟩ :=
  run_succ_of_next (M := core) (step_of_cmd_eq h) k

theorem updateCall_eq_cons {s : List Byte} (hne : s ≠ []) :
    updateCall (I := I) s = .update (s.take I.B) :: updateCall (s.drop I.B) := by
  rw [updateCall, updateCall, chunks_eq_cons hne, List.map_cons]

/-- After its first piece a call has more to absorb only if that piece was a whole block, so that the stream is aligned
again. -/
theorem aligned_after_first_piece {s : List Byte} {size : BitVec 64} (halign : size.toNat % I.B = 0)
    (hmore : s.drop I.B ≠ []) : (size + size64 (s.take I.B)).toNat % I.B = 0 := by
  have hfull : (s.take I.B).length = I.B :=
    List.length_take_of_le (le_of_not_ge (mt List.drop_eq_nil_of_le hmore))
  rw [size64, hfull, ← halign]
  exact addSize_B_mod size

/-- The call, followed by whatever else the host presents. -/
theorem run_updateCall (s : List Byte) {c : CoreState I} {rest : List (Input I)}
    (hphase : c.phase ∈ [Phase.ivset, .ad]) (halign : s ≠ [] → c.authSize.toNat % I.B = 0)
    (hinbox : c.inbox = (updateCall s).map (fun a => .cmd (assemble a)) ++ rest) :
    ∃ t : CoreState I, Host.Core.run core (updateCall (I := I) s).length ⟨I, c⟩ = .next ⟨I, t⟩ ∧ t.inbox = rest ∧
      AfterUpdate Config.E s c t := by
  induction s using pieces_induction I generalizing c with
  | nil =>
    refine ⟨c, ?_, ?_, .nil _ c⟩
    · rw [updateCall, chunks_nil]; rfl
    · rw [hinbox, updateCall, chunks_nil]; rfl
  | cons s hne ih =>
    rw [updateCall_eq_cons hne] at hinbox ⊢
    have htake := take_B_ne_nil I hne
    have hfirst := afterUpdate_lineState Config.E ((updateCall (s.drop I.B)).map (fun a => .cmd (assemble a)) ++ rest)
      htake (List.length_take_le _ _) hphase (halign hne)
    obtain ⟨t, hrun, hdone, hrest⟩ := ih (by rw [hfirst.phase, if_neg htake]; decide)
      (fun hmore => by rw [hfirst.authSize]; exact aligned_after_first_piece (halign hne) hmore)
      (commandState_inbox ..)
    exact ⟨t, (run_succ_of_line hinbox _).trans hrun, hdone, hfirst.cons hne hrest⟩

end Sys2Proof.Machine
end

section
/-! SUPPORT. The statements of spec/41_gf_hasher.md, each settled by the lemmas above. -/

namespace Sys2Proof.Machine

/-- Settles O40: after the last scan step every bit of `y` is counted. -/
theorem gfmulIsMultiplicationModuloF : Obligations.GfmulIsMultiplicationModuloF := fun _ => polyOf_gfmul

/-- Settles O41: multiplication of polynomials is commutative. -/
theorem gfmulIsCommutative : Obligations.GfmulIsCommutative := fun _ => gfmul_comm

/-- Settles O42: XOR is addition of polynomials, and reduction modulo `f` is additive. -/
theorem gfmulIsLinearInEachArgument : Obligations.GfmulIsLinearInEachArgument := fun _ a b y =>
  ⟨xor_gfmul a b y, gfmul_xor y a b⟩

/-- Settles O43: a product of three blocks does not depend on where it is reduced. -/
theorem gfmulIsAssociativeWithIdentity : Obligations.GfmulIsAssociativeWithIdentity := fun _ x y z =>
  ⟨gfmul_assoc x y z, gfmul_one x, (gfmul_comm _ x).trans (gfmul_one x), gfmul_zero x,
    (gfmul_comm 0 x).trans (gfmul_zero x)⟩

/-- Settles O47: the run of the call with nothing presented after it, from an empty channel past. -/
theorem updateCallHasItsClosedForm : Obligations.UpdateCallHasItsClosedForm := by
  intro I c s hphase halign
  obtain ⟨t, hrun, hinbox, h⟩ :=
    run_updateCall (c := (present (updateCall s) c).core) s hphase (fun _ => halign) (List.append_nil _).symm
  exact ⟨t, hrun, h.sum, h.Z, h.authSize, h.phase, h.Y, h.dataSize, h.K, h.keyValid, h.errSticky, hinbox, h.output⟩

end Sys2Proof.Machine
end

section
/-!
SUPPORT. Each command branch by branch (spec/42_mgm_commands.md R135 to R142): the check that fails first gives the
verdict (spec/60_exceptions.md R197), the verdict gives the whole state after, and the bytes of an accepted command's
response are those it returns (R74).
-/

namespace Sys2Proof.Machine

variable {I : Inst}

/-! ## The first check that fails -/

theorem verdict_errLen {c : CoreState I} {i : Instr} (hop : opcode i ≠ 7) (hlen : lenLegal I i = false) :
    verdict c i = .errLen := by
  rw [verdict, if_neg hop, hlen]; rfl

theorem verdict_errNokey {c : CoreState I} {i : Instr} (hop : opcode i ≠ 7) (hlen : lenLegal I i = true)
    (hkey : keyPresent c i = false) : verdict c i = .errNokey := by
  rw [verdict, if_neg hop, hlen, hkey]; rfl

theorem verdict_errPhase {c : CoreState I} {i : Instr} (hop : opcode i ≠ 7) (hlen : lenLegal I i = true)
    (hkey : keyPresent c i = true) (hphase : phaseLegal i c.phase = false) : verdict c i = .errPhase := by
  rw [verdict, if_neg hop, hlen, hkey, hphase]; rfl

theorem verdict_errAlign {c : CoreState I} {i : Instr} (hop : opcode i ≠ 7) (hlen : lenLegal I i = true)
    (hkey : keyPresent c i = true) (hphase : phaseLegal i c.phase = true) (halign : streamAligned c i = false) :
    verdict c i = .errAlign := by
  rw [verdict, if_neg hop, hlen, hkey, hphase, halign]; rfl

/-- SET_IV with a whole nonce needs a key and nothing else (R194). -/
theorem verdict_setIv_ok {c : CoreState I} (hkey : c.keyValid = true) : verdict c (.setIv I.B) = .ok :=
  verdict_eq_ok_iff.2 ⟨(by decide : (2 : BitVec 3) ≠ 7), decide_eq_true rfl, hkey, rfl, rfl⟩

/-- DIGEST has no alignment check: a session may end on a partial block (R140). -/
theorem verdict_digest_ok {c : CoreState I} {n : Nat} (hphase : c.phase ∈ [Phase.ivset, .ad, .enc, .dec])
    (hn : n ≤ I.B) : verdict c (.digest n) = .ok :=
  verdict_eq_ok_iff.2 ⟨(by decide : (6 : BitVec 3) ≠ 7), decide_eq_true hn, rfl, decide_eq_true hphase, rfl⟩

/-! ## What the verdict makes of a command -/

theorem exec_of_ok {c : CoreState I} {i : Instr} (h : verdict c i = .ok) :
    exec i ⟨I, c⟩ = .next ⟨I, acceptedState Config.E c i⟩ := by
  rw [exec_eq, commandState_of_ok h]

theorem exec_of_rejected {c : CoreState I} {i : Instr} {st : Status} (h : verdict c i = st) (hst : st ≠ .ok) :
    exec i ⟨I, c⟩ = .next ⟨I, rejectedState st c⟩ := by
  subst h
  rw [exec_eq, commandState_of_rejected hst, rejectedState_eq]

/-- The rejections that UPDATE, ENCRYPT, DECRYPT and DIGEST share, in the order of R197: first `len`, then the phase,
then the alignment. -/
theorem exec_rejected_in_order {c : CoreState I} {i : Instr} {n : Nat} {legal : List Phase} (hop : opcode i ≠ 7)
    (hlen : lenLegal I i = decide (n ≤ I.B)) (hkey : keyPresent c i = true)
    (hphase : phaseLegal i c.phase = decide (c.phase ∈ legal)) :
    (I.B < n → exec i ⟨I, c⟩ = .next ⟨I, rejectedState .errLen c⟩) ∧
    (n ≤ I.B → c.phase ∉ legal → exec i ⟨I, c⟩ = .next ⟨I, rejectedState .errPhase c⟩) ∧
    (n ≤ I.B → c.phase ∈ legal → streamAligned c i = false →
      exec i ⟨I, c⟩ = .next ⟨I, rejectedState .errAlign c⟩) := by
  have hlegal (hn : n ≤ I.B) : lenLegal I i = true := hlen.trans (decide_eq_true hn)
  refine ⟨fun hn => ?_, fun hn hp => ?_, fun hn hp ha => ?_⟩
  · exact exec_of_rejected (verdict_errLen hop (hlen.trans (decide_eq_false (Nat.not_le.2 hn)))) nofun
  · exact exec_of_rejected (verdict_errPhase hop (hlegal hn) hkey (hphase.trans (decide_eq_false hp))) nofun
  · exact exec_of_rejected (verdict_errAlign hop (hlegal hn) hkey (hphase.trans (decide_eq_true hp)) ha) nofun

/-- A data command with `len = 0` has nothing to do before it answers (R142). -/
theorem acceptedState_of_no_work {E : Cipher} {c : CoreState I} {i : Instr}
    (hi : i ∈ [Instr.update 0, .encrypt 0, .decrypt 0]) : acceptedState E c i = respond .ok 0 0 c := by
  obtain rfl | rfl | rfl : i = .update 0 ∨ i = .encrypt 0 ∨ i = .decrypt 0 := by simpa using hi
  · rfl
  · rfl
  · rfl

/-! ## The bytes of an accepted command's response -/

/-- The response of an accepted command. -/
def answer (E : Cipher) (c : CoreState I) (i : Instr) : Rsp I :=
  ⟨rspWord .ok (answerLen i) (work E c i).phase (work E c i).keyValid (work E c i).errSticky, answerData E c i⟩

theorem acceptedState_trace_answer (E : Cipher) (c : CoreState I) (i : Instr) :
    (acceptedState E c i).trace = c.trace ++ trafficOf E c i ++ [.rsp (answer E c i)] :=
  acceptedState_trace E c i

/-- The host reads from the response of an accepted command the bytes it returns (R74). -/
theorem rspBytes_answer (E : Cipher) {c : CoreState I} {i : Instr} (hok : verdict c i = .ok) :
    rspBytes (answer E c i) = answerBytes E c i := by
  have hlen := length_answerBytes E hok
  have hle := answerLen_le hok
  obtain ⟨-, hrsp, -⟩ := rspWord_fields .ok (hle.trans_lt (inst_B_lt I)) (work E c i).phase (work E c i).keyValid
    (work E c i).errSticky
  rw [rspBytes, answer, hrsp, answerData_eq_pad E hok, ← hlen, trunc_pad (hlen.trans_le hle)]

/-- A longer truncation begins with the shorter one (R97). -/
theorem take_trunc (b : Block I) {n m : Nat} (h : n ≤ m) : (trunc b m).take n = trunc b n := by
  rw [trunc, trunc, List.take_take, min_eq_left h]

/-- The keystream covers as many bytes as there are: TRUNC to the operand's length only cuts what is not used
(R138, R139). -/
theorem xorBytes_trunc (s : List Byte) (b : Block I) : xorBytes s (trunc b s.length) = xorBytes s (toBytes b) := by
  calc xorBytes s (trunc b s.length)
      = (xorBytes s (toBytes b)).take s.length := by rw [xorBytes, xorBytes, List.take_zipWith, List.take_length, trunc]
    _ = xorBytes s (toBytes b) := List.take_of_length_le (by simp)

/-- The same bytes twice cancel (R90). -/
theorem xorBytes_xorBytes {s b : List Byte} (h : s.length ≤ b.length) : xorBytes (xorBytes s b) b = s := by
  induction s generalizing b with
  | nil => rfl
  | cons x s ih =>
    cases b with
    | nil => simp at h
    | cons y b =>
      have htail : xorBytes (xorBytes s b) b = s := ih (Nat.le_of_succ_le_succ h)
      have hhead : x ^^^ y ^^^ y = x := by rw [BitVec.xor_assoc, BitVec.xor_self, BitVec.xor_zero]
      exact congrArg₂ List.cons hhead htail

theorem length_dataOperand {n : Nat} (hn : n ≤ I.B) (c : CoreState I) : (dataOperand n c).length = n :=
  (length_trunc _ n).trans (min_eq_left hn)

/-- The output of a data command is its operand under the keystream block `Ciph(Y)`. -/
theorem streamOut_eq (E : Cipher) {n : Nat} (hn : n ≤ I.B) (c : CoreState I) :
    streamOut E n c = xorBytes (dataOperand n c) (toBytes (E I c.K c.Y)) := by
  have h := xorBytes_trunc (dataOperand n c) (E I c.K c.Y)
  rwa [length_dataOperand hn] at h

/-! ## ENCRYPT and DECRYPT side by side -/

/-- The two commands on the data stream: they differ in the phase they lead to and in which side of the exclusive or
they hash (R138, R139). -/
inductive DataOp where
  | encrypt
  | decrypt

namespace DataOp

/-- The command with `len = n`. -/
def instr : DataOp → Nat → Instr
  | .encrypt => .encrypt
  | .decrypt => .decrypt

/-- The phase the command leads to. -/
def phase : DataOp → Phase
  | .encrypt => .enc
  | .decrypt => .dec

/-- The ciphertext, which is hashed: what ENCRYPT returns, what DECRYPT is given. -/
def ciphertext (given returned : List Byte) : DataOp → List Byte
  | .encrypt => returned
  | .decrypt => given

variable (op : DataOp) {c : CoreState I} {n : Nat}

theorem opcode_instr : opcode (op.instr n) ≠ 7 := by
  cases op with
  | encrypt => exact (by decide : (4 : BitVec 3) ≠ 7)
  | decrypt => exact (by decide : (5 : BitVec 3) ≠ 7)

theorem lenLegal_instr : lenLegal I (op.instr n) = decide (n ≤ I.B) := by cases op <;> rfl

theorem keyPresent_instr : keyPresent c (op.instr n) = true := by cases op <;> rfl

theorem phaseLegal_instr : phaseLegal (op.instr n) c.phase = decide (c.phase ∈ [Phase.ivset, .ad, op.phase]) := by
  cases op <;> rfl

theorem streamAligned_instr : streamAligned c (op.instr n) = decide (c.dataSize.toNat % I.B = 0) := by
  cases op <;> rfl

/-- The command passes its checks in a legal phase at a block boundary of the data (R131, R133). -/
theorem verdict_ok (hphase : c.phase ∈ [Phase.ivset, .ad, op.phase]) (halign : c.dataSize.toNat % I.B = 0)
    (hn : n ≤ I.B) : verdict c (op.instr n) = .ok :=
  verdict_eq_ok_iff.2 ⟨op.opcode_instr, op.lenLegal_instr.trans (decide_eq_true hn), op.keyPresent_instr,
    op.phaseLegal_instr.trans (decide_eq_true hphase), op.streamAligned_instr.trans (decide_eq_true halign)⟩

theorem answerLen_instr : answerLen (op.instr n) = n := by cases op <;> rfl

theorem answerBytes_instr (E : Cipher) (c : CoreState I) (n : Nat) :
    answerBytes E c (op.instr n) = streamOut E n c := by cases op <;> rfl

theorem answerData_instr (E : Cipher) (c : CoreState I) (hn : n ≠ 0) :
    answerData E c (op.instr n) = pad (streamOut E n c) := by cases op <;> exact if_neg hn

/-- Of a block with at least one byte both commands hash the ciphertext and advance the counters alike (R141). -/
theorem work_instr (E : Cipher) (c : CoreState I) (hn : n ≠ 0) : work E c (op.instr n) = { c with
    Y := nextY n c.Y
    Z := incrL c.Z
    sum := c.sum ^^^ gfmul (E I c.K c.Z) (pad (op.ciphertext (dataOperand n c) (streamOut E n c)))
    dataSize := addSize c.dataSize n
    phase := op.phase
    trace := c.trace ++ trafficOf E c (op.instr n) } := by
  rw [← work_trace]
  cases op with
  | encrypt => simp only [work, instr, if_neg hn]; rfl
  | decrypt => simp only [work, instr, if_neg hn]; rfl

/-- The branches of R138 and R139 before the block's work: the three rejections in order, and `len = 0`. -/
theorem exec_before_work (c : CoreState I) (n : Nat) :
    (I.B < n → exec (op.instr n) ⟨I, c⟩ = .next ⟨I, rejectedState .errLen c⟩) ∧
    (n ≤ I.B → c.phase ∉ [Phase.ivset, .ad, op.phase] →
      exec (op.instr n) ⟨I, c⟩ = .next ⟨I, rejectedState .errPhase c⟩) ∧
    (n ≤ I.B → c.phase ∈ [Phase.ivset, .ad, op.phase] → c.dataSize.toNat % I.B ≠ 0 →
      exec (op.instr n) ⟨I, c⟩ = .next ⟨I, rejectedState .errAlign c⟩) ∧
    (n = 0 → c.phase ∈ [Phase.ivset, .ad, op.phase] → c.dataSize.toNat % I.B = 0 →
      exec (op.instr n) ⟨I, c⟩ = .next ⟨I, respond .ok 0 0 c⟩) := by
  obtain ⟨hlen, hphase, halign⟩ := exec_rejected_in_order (c := c) (n := n) op.opcode_instr op.lenLegal_instr
    op.keyPresent_instr op.phaseLegal_instr
  refine ⟨hlen, hphase, fun hn hp ha => halign hn hp (op.streamAligned_instr.trans (decide_eq_false ha)),
    fun hn hp ha => ?_⟩
  rw [exec_of_ok (op.verdict_ok hp ha (hn.trans_le (Nat.zero_le _))), acceptedState_of_no_work]
  cases op <;> simp [instr, hn]

/-- The last branch of R138 and R139: the block's work, and the response with the output bytes. -/
theorem exec_block (hn : n ≠ 0) (hlen : n ≤ I.B) (hphase : c.phase ∈ [Phase.ivset, .ad, op.phase])
    (halign : c.dataSize.toNat % I.B = 0) : exec (op.instr n) ⟨I, c⟩ =
      .next ⟨I, respond .ok n (pad (streamOut Config.E n c)) (work Config.E c (op.instr n))⟩ := by
  rw [exec_of_ok (op.verdict_ok hphase halign hlen), acceptedState, op.answerLen_instr, op.answerData_instr _ _ hn]

end DataOp

end Sys2Proof.Machine
end

section
/-!
SUPPORT. The source's `encrypt(s)` and `decrypt(s)` (spec/42_mgm_commands.md R143, R152): a buffer under the keystream,
what one line leaves and what the host reads after it, and how the pieces of a call make the whole.
-/

namespace Sys2Proof.Machine

variable {I : Inst}

/-! ## A buffer under the keystream -/

/-- The bytes of a buffer under the keystream from counter `y` on (R143). -/
def streamBytes (E : Cipher) (k : Key) (y : Block I) (s : List Byte) : List Byte := keystreamXor E k y (chunks I s)

theorem ciphertextOf_eq (E : Cipher) (k : Key) (nonce : Block I) (P : List Byte) :
    ciphertextOf E k nonce P = streamBytes E k (firstY E k nonce) P := rfl

@[simp] theorem streamBytes_nil (E : Cipher) (k : Key) (y : Block I) : streamBytes E k y [] = [] := by
  rw [streamBytes, chunks_nil, keystreamXor]

theorem streamBytes_of_length_le (E : Cipher) (k : Key) (y : Block I) {s : List Byte} (hle : s.length ≤ I.B) :
    streamBytes E k y s = xorBytes s (toBytes (E I k y)) := by
  by_cases hne : s = []
  · rw [hne, streamBytes_nil]; rfl
  · rw [streamBytes, chunks_of_length_le hne hle, keystreamXor, keystreamXor, List.append_nil, xorBytes_trunc]

/-- The first piece under the first keystream block, the rest from the next on. -/
theorem streamBytes_eq_append (E : Cipher) (k : Key) (y : Block I) (s : List Byte) :
    streamBytes E k y s = streamBytes E k y (s.take I.B) ++ streamBytes E k (incrR y) (s.drop I.B) := by
  by_cases hne : s = []
  · simp [hne]
  · rw [streamBytes_of_length_le E k y (List.length_take_le _ _), streamBytes, chunks_eq_cons hne, keystreamXor,
      xorBytes_trunc]
    rfl

/-- The keystream neither adds nor drops a byte (R155). -/
@[simp] theorem length_streamBytes (E : Cipher) (k : Key) (y : Block I) (s : List Byte) :
    (streamBytes E k y s).length = s.length := by
  induction s using pieces_induction I generalizing y with
  | nil => rw [streamBytes_nil]
  | cons s _ ih =>
    have hpiece := List.length_take_le I.B s
    rw [streamBytes_eq_append, List.length_append, ih, streamBytes_of_length_le E k y hpiece, length_xorBytes,
      length_toBytes, min_eq_left hpiece, ← List.length_append, List.take_append_drop]

/-- A first piece that is a whole block if anything follows it is what the first `B` bytes are. -/
theorem take_drop_of_piece {p r : List Byte} (hle : p.length ≤ I.B) (hfull : r ≠ [] → p.length = I.B) :
    (p ++ r).take I.B = p ∧ (p ++ r).drop I.B = r := by
  by_cases hr : r = []
  · rw [hr, List.append_nil]
    exact ⟨List.take_of_length_le hle, List.drop_eq_nil_of_le hle⟩
  · exact ⟨List.take_left' (hfull hr), List.drop_left' (hfull hr)⟩

theorem length_take_B_of_more {s : List Byte} (hmore : s.drop I.B ≠ []) : (s.take I.B).length = I.B :=
  List.length_take_of_le (le_of_not_ge (mt List.drop_eq_nil_of_le hmore))

/-- The pieces of the output are the pieces of the input under the keystream. -/
theorem take_drop_streamBytes (E : Cipher) (k : Key) (y : Block I) (s : List Byte) :
    (streamBytes E k y s).take I.B = streamBytes E k y (s.take I.B) ∧
      (streamBytes E k y s).drop I.B = streamBytes E k (incrR y) (s.drop I.B) := by
  rw [streamBytes_eq_append E k y s]
  refine take_drop_of_piece ?_ fun hmore => ?_
  · rw [length_streamBytes]
    exact List.length_take_le _ _
  · rw [length_streamBytes]
    refine length_take_B_of_more fun hnil => hmore ?_
    rw [hnil, streamBytes_nil]

/-- Under the same keystream twice a buffer is itself again (R141). -/
theorem streamBytes_streamBytes (E : Cipher) (k : Key) (y : Block I) (s : List Byte) :
    streamBytes E k y (streamBytes E k y s) = s := by
  induction s using pieces_induction I generalizing y with
  | nil => rw [streamBytes_nil, streamBytes_nil]
  | cons s _ ih =>
    obtain ⟨htake, hdrop⟩ := take_drop_streamBytes E k y s
    have hle := List.length_take_le I.B s
    have hfirst : streamBytes E k y (streamBytes E k y (s.take I.B)) = s.take I.B := by
      rw [streamBytes_of_length_le E k y ((length_streamBytes ..).trans_le hle), streamBytes_of_length_le E k y hle]
      exact xorBytes_xorBytes (by simp)
    rw [streamBytes_eq_append, htake, hdrop, hfirst, ih, List.take_append_drop]

/-! ## The sum over the hashed blocks -/

/-- The sum over two runs of blocks: the second goes on with the counter the first leaves (R115). -/
theorem hashOf_append (E : Cipher) (k : Key) (z : Block I) (Ms Ns : List (Block I)) :
    hashOf E k z (Ms ++ Ns) = hashOf E k z Ms ^^^ hashOf E k (zAfter z Ms.length) Ns := by
  induction Ms generalizing z with
  | nil => exact BitVec.zero_xor.symm
  | cons M Ms ih => rw [List.cons_append, hashOf, hashOf, ih, BitVec.xor_assoc, List.length_cons, zAfter]

/-! ## What the host reads after one line -/

theorem eventBytes_of_isCipherEvent {e : Event I} (h : IsCipherEvent e) : eventBytes e = [] := by
  obtain ⟨k, rfl⟩ | ⟨b, rfl⟩ | ⟨b, rfl⟩ := h
  · rfl
  · rfl
  · rfl

theorem outputBytes_append (es fs : List (Event I)) : outputBytes (es ++ fs) = outputBytes es ++ outputBytes fs :=
  List.flatMap_append

/-- An accepted command adds the bytes it returns to what the host has read (R152). -/
theorem outputBytes_acceptedState (E : Cipher) {c : CoreState I} {i : Instr} (hok : verdict c i = .ok) :
    outputBytes (acceptedState E c i).trace = outputBytes c.trace ++ answerBytes E c i := by
  have htraffic : outputBytes (trafficOf E c i) = [] :=
    List.flatMap_eq_nil_iff.2 fun _ he => eventBytes_of_isCipherEvent (isCipherEvent_of_mem_trafficOf he)
  have hanswer : outputBytes [.rsp (answer E c i)] = answerBytes E c i :=
    (List.flatMap_singleton ..).trans (rspBytes_answer E hok)
  rw [acceptedState_trace_answer, outputBytes_append, outputBytes_append, htraffic, hanswer, List.append_nil]

/-- Acceptance writes no register that a check reads. -/
theorem verdict_accept (m : Cmd I) (rest : List (Input I)) (c : CoreState I) (i : Instr) :
    verdict (accept m rest c) i = verdict c i := by cases i <;> rfl

/-- A line whose command passes its checks does that command's work and answers. -/
theorem lineState_of_ok (E : Cipher) {a : Asm I} {i : Instr} {c : CoreState I} (rest : List (Input I))
    (hword : (assemble a).word = encode i) (hwf : i.wf = true) (hok : verdict c i = .ok) :
    lineState E a rest c = acceptedState E (accept (assemble a) rest c) i := by
  rw [lineState, hword, decodeWord_encode hwf, commandState_of_ok ((verdict_accept ..).trans hok)]

theorem outputBytes_lineState (E : Cipher) {a : Asm I} {i : Instr} {c : CoreState I} (rest : List (Input I))
    (hword : (assemble a).word = encode i) (hwf : i.wf = true) (hok : verdict c i = .ok) :
    outputBytes (lineState E a rest c).trace =
      outputBytes c.trace ++ answerBytes E (accept (assemble a) rest c) i := by
  have haccept : outputBytes (accept (assemble a) rest c).trace = outputBytes c.trace := by
    rw [accept_trace, outputBytes_append]
    exact List.append_nil _
  rw [lineState_of_ok E rest hword hwf hok, outputBytes_acceptedState E ((verdict_accept ..).trans hok), haccept]

/-! ## A whole `encrypt(s)` or `decrypt(s)` -/

namespace DataOp

/-- The line of a piece. -/
def line : DataOp → List Byte → Asm I
  | .encrypt => .encrypt
  | .decrypt => .decrypt

/-- The call on a buffer (R152). -/
def call (op : DataOp) (s : List Byte) : List (Asm I) := (chunks I s).map op.line

theorem word_line (op : DataOp) (p : List Byte) :
    (assemble (I := I) (op.line p)).word = encode (op.instr p.length) := by cases op <;> rfl

theorem data_line (op : DataOp) (p : List Byte) : (assemble (I := I) (op.line p)).data = pad p := by cases op <;> rfl

theorem wf_instr (op : DataOp) {n : Nat} (hn : n ≤ I.B) : (op.instr n).wf = true := by
  have hlt : n < 32 := hn.trans_lt (inst_B_lt I)
  cases op <;> exact decide_eq_true hlt

/-- The operand of a line's command is the piece of the line. -/
theorem dataOperand_line (op : DataOp) {p : List Byte} (hlen : p.length ≤ I.B) (rest : List (Input I))
    (c : CoreState I) : dataOperand p.length (accept (assemble (op.line p)) rest c) = p := by
  rw [dataOperand, accept_cmd, data_line, trunc_pad hlen]

theorem streamOut_line (op : DataOp) (E : Cipher) {p : List Byte} (hlen : p.length ≤ I.B) (rest : List (Input I))
    (c : CoreState I) :
    streamOut E p.length (accept (assemble (op.line p)) rest c) = streamBytes E c.K c.Y p := by
  rw [streamOut_eq E hlen, op.dataOperand_line hlen, streamBytes_of_length_le E _ _ hlen]
  rfl

/-- The ciphertext of a call on `s` from counter `y` on. -/
def callCiphertext (op : DataOp) (E : Cipher) (k : Key) (y : Block I) (s : List Byte) : List Byte :=
  op.ciphertext s (streamBytes E k y s)

variable (op : DataOp) (E : Cipher)

@[simp] theorem callCiphertext_nil (k : Key) (y : Block I) : op.callCiphertext E k y [] = [] := by
  cases op with
  | encrypt => exact streamBytes_nil E k y
  | decrypt => rfl

theorem length_callCiphertext (k : Key) (y : Block I) (s : List Byte) :
    (op.callCiphertext E k y s).length = s.length := by
  cases op with
  | encrypt => exact length_streamBytes E k y s
  | decrypt => rfl

theorem take_drop_callCiphertext (k : Key) (y : Block I) (s : List Byte) :
    (op.callCiphertext E k y s).take I.B = op.callCiphertext E k y (s.take I.B) ∧
      (op.callCiphertext E k y s).drop I.B = op.callCiphertext E k (incrR y) (s.drop I.B) := by
  cases op with
  | encrypt => exact take_drop_streamBytes E k y s
  | decrypt => exact ⟨rfl, rfl⟩

theorem chunks_callCiphertext_of_length_le (k : Key) (y : Block I) {s : List Byte} (hne : s ≠ [])
    (hle : s.length ≤ I.B) :
    chunks I (op.callCiphertext E k y s) = [op.callCiphertext E k y s] := by
  have hlen := op.length_callCiphertext E k y s
  refine chunks_of_length_le (fun hnil => hne ?_) (hlen.trans_le hle)
  rw [hnil] at hlen
  exact List.eq_nil_of_length_eq_zero hlen.symm

/-- The ciphertext's pieces are the ciphertexts of the pieces. -/
theorem chunks_callCiphertext (k : Key) (y : Block I) {s : List Byte} (hne : s ≠ []) :
    chunks I (op.callCiphertext E k y s) =
      op.callCiphertext E k y (s.take I.B) :: chunks I (op.callCiphertext E k (incrR y) (s.drop I.B)) := by
  obtain ⟨htake, hdrop⟩ := op.take_drop_callCiphertext E k y s
  have hlen := op.length_callCiphertext E k y s
  rw [chunks_eq_cons, htake, hdrop]
  intro hnil
  rw [hnil] at hlen
  exact hne (List.eq_nil_of_length_eq_zero hlen.symm)

end DataOp

/-- The whole blocks of a buffer are that of its first piece and those of the rest. -/
theorem div_take_add_drop (s : List Byte) : (s.drop I.B).length / I.B + (s.take I.B).length / I.B = s.length / I.B := by
  rw [List.length_drop, List.length_take]
  rcases Nat.lt_or_ge s.length I.B with hlt | hle
  · rw [Nat.sub_eq_zero_of_le hlt.le, Nat.zero_div, Nat.zero_add, min_eq_right hlt.le]
  · rw [min_eq_left hle, Nat.div_self (inst_B_pos I), ← Nat.div_eq_sub_div (inst_B_pos I) hle]

/-- What `encrypt(s)` or `decrypt(s)` on a core `c` leaves in `t`: the registers in closed form, those of other writers
as they were, and the buffer under the keystream returned (R115, R143, R152). -/
structure AfterData (op : DataOp) (E : Cipher) (s : List Byte) (c t : CoreState I) : Prop where
  Y : t.Y = incrR^[s.length / I.B] c.Y
  Z : t.Z = zAfter c.Z (chunks I (op.callCiphertext E c.K c.Y s)).length
  sum : t.sum = c.sum ^^^ hashOf E c.K c.Z ((chunks I (op.callCiphertext E c.K c.Y s)).map pad)
  dataSize : t.dataSize = c.dataSize + size64 s
  phase : t.phase = if s = [] then c.phase else op.phase
  authSize : t.authSize = c.authSize
  K : t.K = c.K
  errSticky : t.errSticky = c.errSticky
  output : outputBytes t.trace = outputBytes c.trace ++ streamBytes E c.K c.Y s

namespace AfterData

variable {op : DataOp} {E : Cipher} {s : List Byte} {c d t : CoreState I}

theorem nil (op : DataOp) (E : Cipher) (c : CoreState I) : AfterData op E [] c c := by
  constructor <;> simp [hashOf, zAfter, size64]

/-- `Y` has advanced after the first piece if there is another. -/
theorem Y_of_more (hfirst : AfterData op E (s.take I.B) c d) (hmore : s.drop I.B ≠ []) : d.Y = incrR c.Y := by
  rw [hfirst.Y, length_take_B_of_more hmore, Nat.div_self (inst_B_pos I)]
  rfl

/-- The first piece and then the rest make the whole. -/
theorem cons (hne : s ≠ []) (hfirst : AfterData op E (s.take I.B) c d) (hrest : AfterData op E (s.drop I.B) d t) :
    AfterData op E s c t := by
  have htake := take_B_ne_nil I hne
  have hpieces := op.chunks_callCiphertext E c.K c.Y hne
  have hsingle := op.chunks_callCiphertext_of_length_le E c.K c.Y htake (List.length_take_le _ _)
  have hstream : streamBytes E d.K d.Y (s.drop I.B) = streamBytes E c.K (incrR c.Y) (s.drop I.B) := by
    by_cases hmore : s.drop I.B = []
    · simp [hmore]
    · rw [hfirst.K, hfirst.Y_of_more hmore]
  have hcipher : op.callCiphertext E d.K d.Y (s.drop I.B) = op.callCiphertext E c.K (incrR c.Y) (s.drop I.B) := by
    rw [DataOp.callCiphertext, DataOp.callCiphertext, hstream]
  have hZ : d.Z = incrL c.Z := by rw [hfirst.Z, hsingle]; rfl
  exact {
    Y := by rw [hrest.Y, hfirst.Y, ← Function.iterate_add_apply, div_take_add_drop]
    Z := by rw [hrest.Z, hcipher, hZ, hpieces, List.length_cons, zAfter]
    sum := by
      rw [hrest.sum, hcipher, hfirst.sum, hsingle, hfirst.K, hZ, hpieces, List.map_singleton, hashOf_singleton,
        List.map_cons, hashOf, BitVec.xor_assoc]
    dataSize := by
      rw [hrest.dataSize, hfirst.dataSize, BitVec.add_assoc, ← size64_append, List.take_append_drop]
    phase := by rw [hrest.phase, hfirst.phase, if_neg htake, ite_self, if_neg hne]
    authSize := hrest.authSize.trans hfirst.authSize
    K := hrest.K.trans hfirst.K
    errSticky := hrest.errSticky.trans hfirst.errSticky
    output := by
      rw [hrest.output, hfirst.output, hstream, List.append_assoc, ← streamBytes_eq_append] }

end AfterData

/-- A block advances `Y` as often as it has whole blocks (R21). -/
theorem nextY_eq_iterate {n : Nat} (hn : n ≤ I.B) (Y : Block I) : nextY n Y = incrR^[n / I.B] Y := by
  rcases hn.eq_or_lt with rfl | hlt
  · rw [nextY_full, Nat.div_self (inst_B_pos I), Function.iterate_one]
  · rw [nextY_partial hlt, Nat.div_eq_of_lt hlt, Function.iterate_zero, id]

/-- One line is the call on a buffer of one piece. -/
theorem afterData_lineState (op : DataOp) (E : Cipher) {p : List Byte} {c : CoreState I} (rest : List (Input I))
    (hne : p ≠ []) (hlen : p.length ≤ I.B) (hphase : c.phase ∈ [Phase.ivset, .ad, op.phase])
    (halign : c.dataSize.toNat % I.B = 0) : AfterData op E p c (lineState E (op.line p) rest c) := by
  have hn : p.length ≠ 0 := mt List.length_eq_zero_iff.1 hne
  have hok := op.verdict_ok hphase halign hlen
  have hout := outputBytes_lineState E rest (op.word_line p) (op.wf_instr hlen) hok
  rw [op.answerBytes_instr, op.streamOut_line E hlen] at hout
  have hstate := lineState_of_ok E rest (op.word_line p) (op.wf_instr hlen) hok
  rw [acceptedState, op.work_instr _ _ hn, op.dataOperand_line hlen, op.streamOut_line E hlen] at hstate
  have hsingle := op.chunks_callCiphertext_of_length_le E c.K c.Y hne hlen
  constructor
  case output => exact hout
  all_goals rw [hstate]
  case Y => exact nextY_eq_iterate hlen c.Y
  case Z => rw [hsingle]; rfl
  case sum => rw [hsingle, List.map_singleton, hashOf_singleton]; rfl
  case dataSize => rfl
  case phase => exact (if_neg hne).symm
  all_goals rfl

end Sys2Proof.Machine
end

section
/-!
SUPPORT. Whole sessions (spec/42_mgm_commands.md R153 to R155): the run of each call, and from these the run of `seal`
and of `open_raw`, whatever state the core is in.
-/

namespace Sys2Proof.Machine

variable {I : Inst}

/-! ## Runs -/

/-- The host presents the lines of a program one after the other. -/
def presented (prog : List (Asm I)) : List (Input I) := prog.map fun a => .cmd (assemble a)

theorem presented_append (prog more : List (Asm I)) : presented (prog ++ more) = presented prog ++ presented more :=
  List.map_append

/-- The core `c` ends in `t` after the commands of `prog`, with `rest` left to be accepted. -/
def RunsTo (prog : List (Asm I)) (rest : List (Input I)) (c t : CoreState I) : Prop :=
  Host.Core.run core prog.length ⟨I, c⟩ = .next ⟨I, t⟩ ∧ t.inbox = rest

theorem run_add_of_next {M : Host.Core} {s s' : M.State} {m : Nat} (h : M.run m s = .next s') (n : Nat) :
    M.run (m + n) s = M.run n s' := by
  induction m generalizing s with
  | zero =>
    cases h
    rw [Nat.zero_add]
  | succ m ih =>
    rw [Nat.succ_add]
    rw [Host.Core.run] at h ⊢
    cases hstep : M.step s with
    | next u => rw [hstep] at h; exact ih h
    | fault r => rw [hstep] at h; cases h
    | refused r => rw [hstep] at h; cases h

namespace RunsTo

variable {c d t : CoreState I} {rest later : List (Input I)}

theorem line {a : Asm I} (h : c.inbox = presented [a] ++ rest) : RunsTo [a] rest c (lineState Config.E a rest c) :=
  ⟨run_succ_of_line h 0, commandState_inbox ..⟩

/-- A line whose command passes its checks. -/
theorem exists_line {a : Asm I} {i : Instr} (hword : (assemble a).word = encode i) (hwf : i.wf = true)
    (hok : verdict c i = .ok) (h : c.inbox = presented [a] ++ rest) :
    ∃ t, RunsTo [a] rest c t ∧ t = acceptedState Config.E (accept (assemble a) rest c) i ∧
      outputBytes t.trace = outputBytes c.trace ++ answerBytes Config.E (accept (assemble a) rest c) i :=
  ⟨_, line h, lineState_of_ok _ rest hword hwf hok, outputBytes_lineState _ rest hword hwf hok⟩

/-- One program after another. -/
theorem append {prog more : List (Asm I)} (hfirst : RunsTo prog later c d) (hmore : RunsTo more rest d t) :
    RunsTo (prog ++ more) rest c t := by
  obtain ⟨hrun, -⟩ := hfirst
  obtain ⟨hrunMore, hrest⟩ := hmore
  refine ⟨?_, hrest⟩
  rw [List.length_append, run_add_of_next hrun, hrunMore]

end RunsTo

/-- The source's `update(s)`, followed by whatever else the host presents (R151). -/
theorem runsTo_updateCall (s : List Byte) {c : CoreState I} {rest : List (Input I)}
    (hphase : c.phase ∈ [Phase.ivset, .ad]) (halign : s ≠ [] → c.authSize.toNat % I.B = 0)
    (hinbox : c.inbox = presented (updateCall s) ++ rest) :
    ∃ t, RunsTo (updateCall s) rest c t ∧ AfterUpdate Config.E s c t := by
  obtain ⟨t, hrun, hrest, hafter⟩ := run_updateCall s hphase halign hinbox
  exact ⟨t, ⟨hrun, hrest⟩, hafter⟩

/-- The source's `encrypt(s)` or `decrypt(s)`, followed by whatever else the host presents (R152). -/
theorem runsTo_dataCall (op : DataOp) (s : List Byte) {c : CoreState I} {rest : List (Input I)}
    (hphase : c.phase ∈ [Phase.ivset, .ad, op.phase]) (halign : s ≠ [] → c.dataSize.toNat % I.B = 0)
    (hinbox : c.inbox = presented (op.call s) ++ rest) :
    ∃ t, RunsTo (op.call s) rest c t ∧ AfterData op Config.E s c t := by
  induction s using pieces_induction I generalizing c with
  | nil =>
    have hcall : op.call (I := I) [] = [] := by rw [DataOp.call, chunks_nil, List.map_nil]
    rw [hcall] at hinbox ⊢
    exact ⟨c, ⟨rfl, hinbox⟩, .nil op _ c⟩
  | cons s hne ih =>
    have hcall : op.call s = [op.line (s.take I.B)] ++ op.call (I := I) (s.drop I.B) := by
      rw [DataOp.call, DataOp.call, chunks_eq_cons hne, List.map_cons, List.singleton_append]
    have htake := take_B_ne_nil I hne
    rw [hcall, presented_append, List.append_assoc] at hinbox
    have hline := RunsTo.line hinbox
    have hfirst := afterData_lineState op Config.E (presented (op.call (s.drop I.B)) ++ rest) htake
      (List.length_take_le _ _) hphase (halign hne)
    obtain ⟨t, hrun, hrest⟩ := ih (by rw [hfirst.phase, if_neg htake]; simp)
      (fun hmore => by rw [hfirst.dataSize]; exact aligned_after_first_piece (halign hne) hmore) (commandState_inbox ..)
    exact ⟨t, hcall ▸ hline.append hrun, hfirst.cons hne hrest⟩

/-! ## A whole session -/

/-- A core whose session for `k` and `nonce` has just been opened, after `past` (R136, R143). -/
structure Opened (E : Cipher) (k : Key) (nonce : Block I) (past : List (Event I)) (c : CoreState I) : Prop where
  K : c.K = k
  phase : c.phase = .ivset
  Y : c.Y = firstY E k nonce
  Z : c.Z = firstZ E k nonce
  sum : c.sum = 0
  authSize : c.authSize = 0
  dataSize : c.dataSize = 0
  errSticky : c.errSticky = false
  output : outputBytes c.trace = outputBytes past

/-- SET_KEY and SET_IV open a session from any state (R153). -/
theorem runsTo_open {k : Key} {nonce : Block I} {c : CoreState I} {rest : List (Input I)}
    (hinbox : c.inbox = presented [.setKey k, .setIv nonce] ++ rest) :
    ∃ t, RunsTo [.setKey k, .setIv nonce] rest c t ∧ Opened Config.E k nonce c.trace t := by
  obtain ⟨d, hrunKey, hd, hdOut⟩ :=
    RunsTo.exists_line (a := .setKey k) (i := .setKey 0) (rest := presented [.setIv nonce] ++ rest) rfl rfl rfl hinbox
  have hK : d.K = k := by rw [hd]; rfl
  have hvalid : d.keyValid = true := by rw [hd]; rfl
  obtain ⟨t, hrunIv, ht, htOut⟩ := RunsTo.exists_line (a := .setIv nonce) (i := .setIv I.B) rfl
    (decide_eq_true (inst_B_lt I)) (verdict_setIv_ok hvalid) hrunKey.2
  refine ⟨t, hrunKey.append hrunIv, ?_⟩
  subst hK
  constructor
  case output => simp [htOut, hdOut, answerBytes]
  all_goals rw [ht]; rfl

/-- DIGEST ends a session and returns the first `n` bytes of the encrypted sum (R140). -/
theorem runsTo_digest {n : Nat} {c : CoreState I} {rest : List (Input I)} (hn : n ≤ I.B)
    (hphase : c.phase ∈ [Phase.ivset, .ad, .enc, .dec]) (hinbox : c.inbox = presented [.digest n] ++ rest) :
    ∃ t, RunsTo [.digest n] rest c t ∧ t.phase = .done ∧ t.errSticky = c.errSticky ∧
      outputBytes t.trace = outputBytes c.trace ++
        trunc (Config.E I c.K (c.sum ^^^ gfmul (Config.E I c.K c.Z) (trailer c.authSize c.dataSize))) n := by
  obtain ⟨t, hrun, ht, htOut⟩ := RunsTo.exists_line (a := .digest n) (i := .digest n) rfl
    (decide_eq_true (hn.trans_lt (inst_B_lt I))) (verdict_digest_ok hphase hn) hinbox
  exact ⟨t, hrun, by rw [ht]; rfl, by rw [ht]; rfl, htOut⟩

/-- The lines of `seal` and of `open_raw` (R153). -/
def DataOp.session (op : DataOp) (k : Key) (nonce : Block I) (A S : List Byte) (n : Nat) : List (Asm I) :=
  [.setKey k, .setIv nonce] ++ updateCall A ++ op.call S ++ [.digest n]

theorem sealCall_eq (k : Key) (nonce : Block I) (A P : List Byte) (n : Nat) :
    sealCall k nonce A P n = DataOp.encrypt.session k nonce A P n := rfl

theorem openCall_eq (k : Key) (nonce : Block I) (A C : List Byte) (n : Nat) :
    openCall k nonce A C n = DataOp.decrypt.session k nonce A C n := rfl

/-- The sum that DIGEST encrypts is that over the blocks of the associated data, those of the ciphertext and the
trailer (R154). -/
theorem sum_of_session {op : DataOp} {k : Key} {nonce : Block I} {A S : List Byte} {past : List (Event I)}
    {o a d : CoreState I} (hopen : Opened Config.E k nonce past o) (hupdate : AfterUpdate Config.E A o a)
    (hdata : AfterData op Config.E S a d) :
    d.sum ^^^ gfmul (Config.E I d.K d.Z) (trailer d.authSize d.dataSize) =
      hashOf Config.E k (firstZ Config.E k nonce)
        (hashedBlocks I A (op.callCiphertext Config.E k (firstY Config.E k nonce) S)) := by
  have hK : a.K = k := hupdate.K.trans hopen.K
  have hY : a.Y = firstY Config.E k nonce := hupdate.Y.trans hopen.Y
  have hZ : a.Z = zAfter (firstZ Config.E k nonce) (chunks I A).length := by rw [hupdate.Z, hopen.Z]
  have hsum : a.sum = hashOf Config.E k (firstZ Config.E k nonce) ((chunks I A).map pad) := by
    rw [hupdate.sum, hopen.sum, hopen.K, hopen.Z]
    exact BitVec.zero_xor
  have hauth : d.authSize = size64 A := by
    rw [hdata.authSize, hupdate.authSize, hopen.authSize, zero_add]
  have hsize : d.dataSize = size64 (op.callCiphertext Config.E k (firstY Config.E k nonce) S) := by
    rw [hdata.dataSize, hupdate.dataSize, hopen.dataSize, zero_add, size64, size64, op.length_callCiphertext]
  rw [hauth, hsize, hdata.sum, hdata.K, hdata.Z, hK, hY, hZ, hsum, hashedBlocks, List.append_assoc, hashOf_append,
    hashOf_append, hashOf_singleton, List.length_map, List.length_map, BitVec.xor_assoc]

/-- A whole session from any state: the data under the keystream, then the tag of the closed form (R154). -/
theorem runsTo_session (op : DataOp) (k : Key) (nonce : Block I) (A S : List Byte) {n : Nat} (hn : n ≤ I.B)
    {c : CoreState I} (hinbox : c.inbox = presented (op.session k nonce A S n)) :
    ∃ t, RunsTo (op.session k nonce A S n) [] c t ∧ t.phase = .done ∧ t.errSticky = false ∧
      outputBytes t.trace = outputBytes c.trace ++ streamBytes Config.E k (firstY Config.E k nonce) S ++
        tagOf Config.E k nonce A (op.callCiphertext Config.E k (firstY Config.E k nonce) S) n := by
  rw [DataOp.session, presented_append, presented_append, presented_append, List.append_assoc,
    List.append_assoc] at hinbox
  obtain ⟨o, hrunOpen, hopen⟩ := runsTo_open hinbox
  obtain ⟨a, hrunUpdate, hupdate⟩ :=
    runsTo_updateCall A (by simp [hopen.phase]) (by simp [hopen.authSize]) hrunOpen.2
  obtain ⟨d, hrunData, hdata⟩ := runsTo_dataCall op S (by rw [hupdate.phase, hopen.phase]; split <;> simp)
    (by simp [hupdate.dataSize, hopen.dataSize]) hrunUpdate.2
  have hphase : d.phase ∈ [Phase.ivset, .ad, .enc, .dec] := by
    rw [hdata.phase, hupdate.phase, hopen.phase]
    cases op <;> split_ifs <;> decide
  obtain ⟨t, hrunDigest, hdone, herr, hout⟩ :=
    runsTo_digest hn hphase (hrunData.2.trans (List.append_nil _).symm)
  have hK : a.K = k := hupdate.K.trans hopen.K
  have hY : a.Y = firstY Config.E k nonce := hupdate.Y.trans hopen.Y
  refine ⟨t, ((hrunOpen.append hrunUpdate).append hrunData).append hrunDigest, hdone, ?_, ?_⟩
  · rw [herr, hdata.errSticky, hupdate.errSticky, hopen.errSticky]
  · rw [hout, sum_of_session hopen hupdate hdata, hdata.output, hupdate.output, hopen.output, hdata.K, hK, hY, tagOf]

/-- A session presented to a core with no channel past, whatever state the core is in. -/
theorem runCalls_session (op : DataOp) (k : Key) (nonce : Block I) (A S : List Byte) {n : Nat} (hn : n ≤ I.B)
    (c : CoreState I) :
    ∃ t : CoreState I, runCalls (op.session k nonce A S n) c = .next ⟨I, t⟩ ∧
      t.phase = .done ∧ t.errSticky = false ∧
      outputBytes t.trace = streamBytes Config.E k (firstY Config.E k nonce) S ++
        tagOf Config.E k nonce A (op.callCiphertext Config.E k (firstY Config.E k nonce) S) n := by
  obtain ⟨t, ⟨hrun, -⟩, hdone, herr, hout⟩ :=
    runsTo_session op k nonce A S hn (c := (present (op.session k nonce A S n) c).core) rfl
  exact ⟨t, hrun, hdone, herr, hout⟩

end Sys2Proof.Machine
end

section
/-! SUPPORT. The statements of spec/42_mgm_commands.md, each settled by the lemmas above. -/

namespace Sys2Proof.Machine

/-- Settles O21: the traffic of an accepted command and its response, as `acceptedState_trace` has them. -/
theorem acceptedCommandsFollowTheTrafficTable : Obligations.AcceptedCommandsFollowTheTrafficTable :=
  fun _ c i hok => ⟨acceptedState Config.E c i, answerLen i, answerData Config.E c i, exec_of_ok hok,
    answerLen_le hok, acceptedState_trace Config.E c i⟩

/-- Settles O23: an accepted command leaves the phase its work left, a rejected one the phase it found. -/
theorem phaseAfterEveryCommand : Obligations.PhaseAfterEveryCommand := by
  intro I c i
  refine ⟨commandState Config.E c i, exec_eq i c, ?_⟩
  split
  · next hok => rw [commandState_of_ok hok]; exact work_phase Config.E c i
  · next hrej => rw [commandState_of_rejected hrej, reject_phase]

/-- Settles O45: the ciphertext an ENCRYPT returns is what it hashes, and a DECRYPT of it hashes the same; under the
same keystream block the two exclusive ors cancel. -/
theorem decryptInvertsEncrypt : Obligations.DecryptInvertsEncrypt := by
  intro I c m len hphase halign hpos hlen
  have hne : len ≠ 0 := Nat.one_le_iff_ne_zero.1 hpos
  have hphases (op : DataOp) : c.phase ∈ [Phase.ivset, .ad, op.phase] := List.mem_append_left [op.phase] hphase
  have hok (op : DataOp) (m : Cmd I) : verdict { c with cmd := m } (op.instr len) = .ok :=
    op.verdict_ok (hphases op) halign hlen
  have hread : rspBytes (answer Config.E { c with cmd := m } (.encrypt len)) =
      streamOut Config.E len { c with cmd := m } :=
    rspBytes_answer _ (hok .encrypt m)
  refine ⟨_, _, answer Config.E { c with cmd := m } (.encrypt len), exec_of_ok (hok .encrypt m),
    (work_phase ..).trans (if_neg hne), acceptedState_trace_answer .., ?len, fun m' hm' => ?decrypt⟩
  case len => rw [hread, length_streamOut _ hlen]
  case decrypt =>
    have hcipher : dataOperand len { c with cmd := m' } = streamOut Config.E len { c with cmd := m } := hm'.trans hread
    have hplain : streamOut Config.E len { c with cmd := m' } = trunc m.data len := by
      rw [streamOut_eq _ hlen, hcipher, streamOut_eq _ hlen]
      exact xorBytes_xorBytes (by simp [dataOperand])
    refine ⟨_, _, answer Config.E { c with cmd := m' } (.decrypt len), exec_of_ok (hok .decrypt m'),
      (work_phase ..).trans (if_neg hne), acceptedState_trace_answer ..,
      (rspBytes_answer _ (hok .decrypt m')).trans hplain, ?_⟩
    have henc : work Config.E { c with cmd := m } (.encrypt len) = _ := DataOp.encrypt.work_instr Config.E _ hne
    have hdec : work Config.E { c with cmd := m' } (.decrypt len) = _ := DataOp.decrypt.work_instr Config.E _ hne
    simp [acceptedState, henc, hdec, DataOp.ciphertext, hcipher]

/-- Settles O46: the two commands differ in how many bytes of `sum` they return, after the same work. -/
theorem shorterTagIsAPrefix : Obligations.ShorterTagIsAPrefix := by
  intro I c n m hlegal hnm hm
  have hn := hnm.trans hm
  have hphase : c.phase ∈ [Phase.ivset, .ad, .enc, .dec] := of_decide_eq_true (digestLegal_eq c.phase ▸ hlegal)
  have hnOk := verdict_digest_ok hphase hn
  have hmOk := verdict_digest_ok hphase hm
  refine ⟨_, _, trafficOf Config.E c (.digest n), answer Config.E c (.digest n), answer Config.E c (.digest m),
    exec_of_ok hnOk, acceptedState_trace_answer .., exec_of_ok hmOk, acceptedState_trace_answer .., ?_, ?_⟩
  · rw [rspBytes_answer _ hnOk, rspBytes_answer _ hmOk]
    exact (take_trunc _ hnm).symm
  · rw [rspBytes_answer _ hnOk]
    exact length_answerBytes _ hnOk

/-- Settles O48: `seal` is a session whose ciphertext is what it returns. -/
theorem sealReturnsTheClosedForm : Obligations.SealReturnsTheClosedForm := by
  intro I c k nonce A P t ht
  rw [sealCall_eq]
  exact runCalls_session .encrypt k nonce A P ht c

/-- Settles O49: the closed forms name neither core's state, and the keystream over the ciphertext gives the plaintext
back. -/
theorem openAfterSealGivesBackThePlaintext : Obligations.OpenAfterSealGivesBackThePlaintext := by
  intro I k nonce A P t ht
  refine ⟨ciphertextOf Config.E k nonce P, tagOf Config.E k nonce A (ciphertextOf Config.E k nonce P) t,
    length_streamBytes .., (length_trunc ..).trans (min_eq_left ht), fun c => ⟨?sealed, ?opened⟩⟩
  case sealed =>
    rw [sealCall_eq]
    obtain ⟨e, hrun, -, -, hout⟩ := runCalls_session .encrypt k nonce A P ht c
    exact ⟨e, hrun, hout⟩
  case opened =>
    rw [openCall_eq]
    obtain ⟨e, hrun, -, -, hout⟩ := runCalls_session .decrypt k nonce A (ciphertextOf Config.E k nonce P) ht c
    rw [ciphertextOf_eq, streamBytes_streamBytes] at hout
    exact ⟨e, hrun, hout⟩

/-- Settles O11: NOP is accepted in every state and has no work. -/
theorem nopOnlyReportsTheFlags : Obligations.NopOnlyReportsTheFlags := fun _ c len => exec_of_ok (verdict_nop c len)

/-- Settles O14: the two checks in order, then the writes of `startSession`. -/
theorem setIvStartsASession : Obligations.SetIvStartsASession := by
  intro I c len
  have hop : opcode (.setIv len) ≠ 7 := (by decide : (2 : BitVec 3) ≠ 7)
  refine ⟨fun hlen => ?errLen, fun hlen hkey => ?errNokey, fun hlen hkey => ?accepted⟩
  case errLen => exact exec_of_rejected (verdict_errLen hop (decide_eq_false hlen)) nofun
  case errNokey => exact exec_of_rejected (verdict_errNokey hop (decide_eq_true hlen) hkey) nofun
  case accepted =>
    subst hlen
    rw [exec_of_ok (verdict_setIv_ok hkey)]
    simp [acceptedState, work, startSession, answerLen, answerData, nonceOperand, ciph, respond_eq, hkey]

/-- Settles O15: the three checks in order; then `len = 0` only answers, and the rest is `absorb`. -/
theorem updateAbsorbsOneBlock : Obligations.UpdateAbsorbsOneBlock := by
  intro I c len
  obtain ⟨hlenBad, hphaseBad, halignBad⟩ := exec_rejected_in_order (c := c) (i := .update len)
    (by decide : (3 : BitVec 3) ≠ 7) rfl rfl rfl
  refine ⟨hlenBad, hphaseBad, fun hlen hphase ha => halignBad hlen hphase (decide_eq_false ha),
    fun hlen hphase ha => ?zero, fun hpos hlen hphase ha => ?accepted⟩
  case zero =>
    subst hlen
    rw [exec_of_ok (verdict_update_ok hphase ha (Nat.zero_le _)), acceptedState_of_no_work (by decide), respond_eq]
  case accepted =>
    rw [exec_of_ok (verdict_update_ok hphase ha hlen), acceptedState_update, if_neg (Nat.one_le_iff_ne_zero.1 hpos)]
    simp [absorb, dataOperand, addSize, hashStep_eq, respond_eq]

/-- Settles O16: the three checks in order; then `len = 0` only answers, and the rest is the block's work. -/
theorem encryptAbsorbsTheCiphertextItReturns : Obligations.EncryptAbsorbsTheCiphertextItReturns := by
  intro I c len
  obtain ⟨hlenBad, hphaseBad, halignBad, hzero⟩ := DataOp.encrypt.exec_before_work c len
  refine ⟨hlenBad, hphaseBad, halignBad, hzero, fun hpos hlen hphase halign out hout => ?_⟩
  have hne : len ≠ 0 := Nat.one_le_iff_ne_zero.1 hpos
  have hstream : streamOut Config.E len c = out := hout.symm
  refine (DataOp.encrypt.exec_block hne hlen hphase halign).trans ?_
  rw [DataOp.encrypt.work_instr _ _ hne, hstream]
  simp [respond_eq, nextY, addSize, trafficOf, cipherPair, hne, DataOp.instr, DataOp.phase, DataOp.ciphertext]

/-- Settles O17: the three checks in order; then `len = 0` only answers, and the rest is the block's work. -/
theorem decryptAbsorbsTheCiphertextItIsGiven : Obligations.DecryptAbsorbsTheCiphertextItIsGiven := by
  intro I c len
  obtain ⟨hlenBad, hphaseBad, halignBad, hzero⟩ := DataOp.decrypt.exec_before_work c len
  refine ⟨hlenBad, hphaseBad, halignBad, hzero, fun hpos hlen hphase halign out hout => ?_⟩
  have hne : len ≠ 0 := Nat.one_le_iff_ne_zero.1 hpos
  have hstream : streamOut Config.E len c = out := hout.symm
  refine (DataOp.decrypt.exec_block hne hlen hphase halign).trans ?_
  rw [DataOp.decrypt.work_instr _ _ hne, hstream]
  simp [respond_eq, nextY, addSize, dataOperand, trafficOf, cipherPair, hne, DataOp.instr, DataOp.phase,
    DataOp.ciphertext]

/-- Settles O18: the two checks in order, then the trailer's hash step and `sealSum`. -/
theorem digestReturnsTheTag : Obligations.DigestReturnsTheTag := by
  intro I c len
  obtain ⟨hlenBad, hphaseBad, -⟩ := exec_rejected_in_order (c := c) (i := .digest len)
    (by decide : (6 : BitVec 3) ≠ 7) rfl rfl rfl
  refine ⟨hlenBad, hphaseBad, fun hlen hphase folded tag hfolded htag => ?accepted⟩
  case accepted =>
    subst htag hfolded
    rw [exec_of_ok (verdict_digest_ok hphase hlen)]
    simp [acceptedState, work, sealSum, answerLen, answerData, ciph, askCipher_eq, hashStep_eq, respond_eq]

/-- Settles O19: without work the command only answers. -/
theorem zeroLengthDataCommandsChangeNothing : Obligations.ZeroLengthDataCommandsChangeNothing := by
  intro I c i hi hok
  rw [exec_of_ok hok, acceptedState_of_no_work hi, respond_eq]

end Sys2Proof.Machine
end

section
/-! SUPPORT. The statement of spec/43_cipher_wrapper.md, settled by the lemmas above. -/

namespace Sys2Proof.Machine

/-- Settles O13: the one check is `len = 0`; then the writes of `loadKey` and the response (R175). -/
theorem setKeyLoadsTheKeyAndEndsTheSession : Obligations.SetKeyLoadsTheKeyAndEndsTheSession := by
  intro I c len
  refine ⟨fun hlen => ?errLen, fun hlen => ?accepted⟩
  case errLen =>
    have hop : opcode (.setKey len) ≠ 7 := (by decide : (1 : BitVec 3) ≠ 7)
    exact exec_of_rejected (verdict_errLen hop (decide_eq_false hlen)) nofun
  case accepted =>
    subst hlen
    have hok : verdict c (.setKey 0) = .ok := verdict_setKey c 0
    rw [exec_of_ok hok]
    simp [acceptedState, work, loadKey, answerLen, answerData, keyOperand, respond_eq]

end Sys2Proof.Machine
end

section
/-! SUPPORT. The statements of spec/60_exceptions.md, each settled by the lemmas above. -/

namespace Sys2Proof.Machine

variable {I : Inst}

/-- The response of an accepted command reports status OK (R71, R72). -/
theorem answer_status (E : Cipher) {c : CoreState I} {i : Instr} (hok : verdict c i = .ok) :
    (answer E c i).word.extractLsb' 0 4 = Status.ok.code :=
  (rspWord_fields .ok ((answerLen_le hok).trans_lt (inst_B_lt I)) _ _ _).1

/-- A transaction with the cipher is no response. -/
theorem IsCipherEvent.ne_rsp {e : Event I} (h : IsCipherEvent e) (q : Rsp I) : e ≠ .rsp q := by
  obtain ⟨k, rfl⟩ | ⟨b, rfl⟩ | ⟨b, rfl⟩ := h
  · nofun
  · nofun
  · nofun

/-- Settles O20: the verdict rejects, or the command does its work, which sends no response, and answers OK. -/
theorem firstFailingCheckRejectsTheCommand : Obligations.FirstFailingCheckRejectsTheCommand := by
  refine fun I c i => ⟨fun hrej => exec_of_rejected rfl hrej, fun hok => ?accepted⟩
  case accepted =>
    exact ⟨acceptedState Config.E c i, trafficOf Config.E c i, answer Config.E c i, exec_of_ok hok,
      acceptedState_trace_answer Config.E c i, answer_status Config.E hok,
      fun e he => (isCipherEvent_of_mem_trafficOf he).ne_rsp⟩

/-- Settles O8, by induction on the number of steps: each is the idle step. -/
theorem idleCoreHoldsItsState : Obligations.IdleCoreHoldsItsState := by
  rintro ⟨I, c⟩ k hidle
  induction k with
  | zero => rfl
  | succ k ih => exact (run_succ_of_next (M := core) (step_of_idle hidle) k).trans ih

/-- Settles O10: a step is idle, the reset input, or one command, and each gives a state of the same core. -/
theorem everyStepCompletesInTheSameInstance : Obligations.EveryStepCompletesInTheSameInstance := by
  rintro ⟨I, c⟩
  obtain ⟨-, hnext⟩ | ⟨rest, -, hnext⟩ | ⟨m, rest, -, hnext⟩ := step_cases c
  · exact ⟨c, hnext⟩
  · exact ⟨applyReset rest c, hnext⟩
  · exact ⟨commandState Config.E (accept m rest c) (decodeWord m.word), hnext.trans (exec_eq ..)⟩

/-- Settles O12: the first check fails for the reserved operation, whatever the rest of the state is (R192). -/
theorem reservedOperationIsRejected : Obligations.ReservedOperationIsRejected := fun _ c len =>
  exec_of_rejected (verdict_reserved c len) nofun

end Sys2Proof.Machine
end

section
/-!
SUPPORT. What no transaction shows (spec/70_reset_and_hazards.md R221): two cores that differ at most in registers no
rule reads take the same step. In a live session there are no such registers, so the cores are one and the same; without a
session only NOP, SET_KEY and, with a key, SET_IV pass their checks, and none of these reads one.
-/

namespace Sys2Proof.Machine

variable {I : Inst}

/-! ## Commands without a session -/

/-- Without a session the checks let through only NOP, SET_KEY and, once there is a key, SET_IV (R131, R194). -/
theorem accepted_of_uninit {c : CoreState I} {i : Instr} (hphase : c.phase = .uninit) (hok : verdict c i = .ok) :
    (∃ n, i = .nop n) ∨ (∃ n, i = .setKey n) ∨ (∃ n, i = .setIv n) ∧ c.keyValid = true := by
  obtain ⟨hres, -, hkey, hlegal, -⟩ := verdict_eq_ok_iff.1 hok
  cases i with
  | nop n => exact .inl ⟨n, rfl⟩
  | setKey n => exact .inr (.inl ⟨n, rfl⟩)
  | setIv n => exact .inr (.inr ⟨⟨n, rfl⟩, hkey⟩)
  | reserved n => exact absurd rfl hres
  | update n | encrypt n | decrypt n | digest n => simp [hphase, phaseLegal] at hlegal

/-- No command takes the key away: only reset does (R29). -/
theorem commandState_keyValid (E : Cipher) {c : CoreState I} (hkey : c.keyValid = true) (i : Instr) :
    (commandState E c i).keyValid = true := by
  by_cases h : i = .setKey 0
  · rw [h]; rfl
  · rw [(commandState_key E c h).2, hkey]

/-- A command that leaves a live session leaves a key: the session was live before, or SET_IV was checked for the key
(R38 (a)). -/
theorem commandState_live_has_key (E : Cipher) {c : CoreState I} (h : c.phase ≠ .uninit → c.keyValid = true)
    (i : Instr) (hlive : (commandState E c i).phase ≠ .uninit) : (commandState E c i).keyValid = true := by
  refine commandState_keyValid E ?_ i
  by_cases hphase : c.phase = .uninit
  · by_cases hok : verdict c i = .ok
    · rw [commandState_of_ok hok] at hlive
      obtain ⟨n, rfl⟩ | ⟨n, rfl⟩ | ⟨-, hkey⟩ := accepted_of_uninit hphase hok
      · exact absurd hphase hlive
      · exact absurd rfl hlive
      · exact hkey
    · rw [commandState_of_rejected hok] at hlive
      exact absurd hphase hlive
  · exact h hphase

/-! ## The relation and the shared operations -/

namespace SameVisible

variable {c d : CoreState I}

theorem refl (c : CoreState I) : SameVisible c c :=
  ⟨rfl, rfl, rfl, rfl, rfl, rfl, fun _ => ⟨rfl, rfl, rfl, rfl, rfl⟩, fun _ => rfl⟩

/-- With a session and a key every register is read by some rule. -/
theorem eq_of_live (h : SameVisible c d) (hphase : c.phase ≠ .uninit) (hkey : c.keyValid = true) : c = d := by
  obtain ⟨hY, hZ, hsum, hauth, hdata⟩ := h.session hphase
  have hK := h.key hkey
  obtain ⟨hphase, hkeyValid, herr, hcmd, hinbox, htrace, -, -⟩ := h
  cases c
  cases d
  simp_all

theorem accept (h : SameVisible c d) (m : Cmd I) (rest : List (Input I)) :
    SameVisible (accept m rest c) (accept m rest d) where
  phase := h.phase
  keyValid := h.keyValid
  errSticky := h.errSticky
  cmd := rfl
  inbox := rfl
  trace := by rw [accept_trace, accept_trace, h.trace]
  session := h.session
  key := h.key

theorem respond (h : SameVisible c d) (st : Status) (len : Nat) (data : Block I) :
    SameVisible (respond st len data c) (respond st len data d) where
  phase := h.phase
  keyValid := h.keyValid
  errSticky := h.errSticky
  cmd := rfl
  inbox := h.inbox
  trace := by rw [respond_trace, respond_trace, h.trace, h.phase, h.keyValid, h.errSticky]
  session := h.session
  key := h.key

theorem reject (h : SameVisible c d) (st : Status) : SameVisible (reject st c) (reject st d) :=
  SameVisible.respond (c := { c with errSticky := true }) (d := { d with errSticky := true })
    ⟨h.phase, h.keyValid, rfl, h.cmd, h.inbox, h.trace, h.session, h.key⟩ st 0 0

/-- Reset clears the flags; what it puts in the other registers does not matter. -/
theorem applyReset (h : SameVisible c d) (rest : List (Input I)) :
    SameVisible (applyReset rest c) (applyReset rest d) where
  phase := rfl
  keyValid := rfl
  errSticky := rfl
  cmd := rfl
  inbox := rfl
  trace := by rw [applyReset_trace, applyReset_trace, h.trace]
  session := fun hlive => absurd rfl hlive
  key := nofun

/-! ## One command without a session -/

/-- SET_KEY loads the same key and ends the session, so the session registers may differ still. -/
theorem loadKey (h : SameVisible c d) : SameVisible (loadKey c) (loadKey d) where
  phase := rfl
  keyValid := rfl
  errSticky := h.errSticky
  cmd := h.cmd
  inbox := h.inbox
  trace := by simp only [Machine.loadKey, emit_trace, keyOperand, h.trace, h.cmd]
  session := fun hlive => absurd rfl hlive
  key := fun _ => congrArg Cmd.key h.cmd

/-- SET_IV writes every session register from the nonce and the key (R136). -/
theorem startSession (h : SameVisible c d) (E : Cipher) (hkey : c.keyValid = true) :
    SameVisible (startSession E c) (startSession E d) where
  phase := rfl
  keyValid := h.keyValid
  errSticky := rfl
  cmd := h.cmd
  inbox := h.inbox
  trace := by simp only [Machine.startSession, askCipher_trace, askCipher_K, nonceOperand, h.trace, h.cmd, h.key hkey]
  session := fun _ => by simp only [Machine.startSession, ciph, nonceOperand, h.cmd, h.key hkey, and_self]
  key := h.key

/-- A stream's alignment, the one check that reads a dead register, comes after the phase check (R197). -/
theorem verdict_eq (h : SameVisible c d) (hphase : c.phase = .uninit) (i : Instr) : verdict c i = verdict d i := by
  have hphase' : d.phase = .uninit := h.phase ▸ hphase
  cases i with
  | update n => simp only [verdict_update, hphase, hphase', updateLegal, Bool.not_false, if_true]
  | encrypt n => simp only [verdict_encrypt, hphase, hphase', encryptLegal, Bool.not_false, if_true]
  | decrypt n => simp only [verdict_decrypt, hphase, hphase', decryptLegal, Bool.not_false, if_true]
  | digest n => rw [verdict_digest, verdict_digest, h.phase]
  | setIv n => rw [verdict_setIv, verdict_setIv, h.keyValid]
  | nop n | setKey n | reserved n => rfl

theorem acceptedState (h : SameVisible c d) (E : Cipher) (hphase : c.phase = .uninit) {i : Instr}
    (hok : verdict c i = .ok) : SameVisible (acceptedState E c i) (acceptedState E d i) := by
  obtain ⟨n, rfl⟩ | ⟨n, rfl⟩ | ⟨⟨n, rfl⟩, hkey⟩ := accepted_of_uninit hphase hok
  · exact h.respond .ok 0 0
  · exact h.loadKey.respond .ok 0 0
  · exact (h.startSession E hkey).respond .ok 0 0

/-- Every command takes cores that look the same to cores that look the same. -/
theorem commandState (h : SameVisible c d) (E : Cipher) (hlive : c.phase ≠ .uninit → c.keyValid = true) (i : Instr) :
    SameVisible (commandState E c i) (commandState E d i) := by
  by_cases hphase : c.phase = .uninit
  · have hv := h.verdict_eq hphase i
    by_cases hok : verdict c i = .ok
    · rw [commandState_of_ok hok, commandState_of_ok (hv ▸ hok)]
      exact h.acceptedState E hphase hok
    · rw [commandState_of_rejected hok, commandState_of_rejected (hv ▸ hok), hv]
      exact h.reject _
  · rw [h.eq_of_live hphase (hlive hphase)]
    exact refl _

end SameVisible

/-- A core right after reset looks the same whatever the unspecified registers hold (R221). -/
theorem sameVisible_reset (Y Z sum : Block I) (a d : BitVec 64) (k : Key) :
    SameVisible (CoreState.reset I)
      { CoreState.reset I with Y := Y, Z := Z, sum := sum, authSize := a, dataSize := d, K := k } :=
  ⟨rfl, rfl, rfl, rfl, rfl, rfl, fun hlive => absurd rfl hlive, nofun⟩

end Sys2Proof.Machine
end

section
/-!
SUPPORT. Two hazards of the trailer (spec/70_reset_and_hazards.md): sizes that agree in the bits it keeps collide (R236),
and the empty message's trailer is zero, so the hash key drops out of its tag (R225).
-/

namespace Sys2Proof.Machine

variable {I : Inst}

/-! ## When two sessions have one trailer -/

/-- A bit count of `8·HB` bits keeps the low `8·HB - 3` bits of the byte count (R98). -/
theorem bitCount_eq_iff (n m : BitVec 64) :
    bitCount I n = bitCount I m ↔ n.toNat % 2 ^ (8 * I.HB - 3) = m.toNat % 2 ^ (8 * I.HB - 3) := by
  have hwidth : 2 ^ (8 * I.HB) = 8 * 2 ^ (8 * I.HB - 3) := by cases I <;> rfl
  rw [← BitVec.toNat_inj, bitCount, bitCount, BitVec.toNat_ofNat, BitVec.toNat_ofNat, hwidth, Nat.mul_mod_mul_left,
    Nat.mul_mod_mul_left]
  omega

/-- A trailer is its two bit counts. -/
theorem trailer_eq_iff (a d a' d' : BitVec 64) :
    (trailer a d : Block I) = trailer a' d' ↔ bitCount I a = bitCount I a' ∧ bitCount I d = bitCount I d' := by
  refine ⟨fun h => ⟨?auth, ?data⟩, fun ⟨hauth, hdata⟩ => by rw [trailer, hauth, hdata, trailer]⟩
  case auth => simpa only [trailer, firstHalf_append] using congrArg firstHalf h
  case data => simpa only [trailer, secondHalf_append] using congrArg secondHalf h

/-! ## The empty message -/

theorem trailer_zero : (trailer 0 0 : Block I) = 0 := by cases I <;> rfl

/-- With nothing but a zero trailer hashed, the sum is zero under any hash key (R225). -/
theorem tagOf_empty (E : Cipher) (k : Key) (nonce : Block I) (n : Nat) :
    tagOf E k nonce [] [] n = trunc (E I k 0) n := by
  have hblocks : hashedBlocks I [] [] = [0] := by
    rw [hashedBlocks, chunks_nil]
    exact congrArg ([·]) trailer_zero
  rw [tagOf, hblocks, hashOf_singleton, gfmul_zero]

/-- `seal` of an empty message with no associated data is the three lines SET_KEY, SET_IV and DIGEST (R151, R153). -/
theorem sealCall_empty (k : Key) (nonce : Block I) (n : Nat) :
    sealCall k nonce [] [] n = [.setKey k, .setIv nonce, .digest n] := by
  simp [sealCall, updateCall, encryptCall]

end Sys2Proof.Machine
end

section
/-! SUPPORT. The statements of spec/70_reset_and_hazards.md, each settled by the lemmas above. -/

namespace Sys2Proof.Machine

/-- Settles O32: cores that look the same have the same host's list, so both are idle, both take the reset input, or both
run the same command. -/
theorem deadRegistersCannotBeObserved : Obligations.DeadRegistersCannotBeObserved := by
  refine ⟨fun I => sameVisible_reset, fun I c d hlive h => ?_⟩
  obtain ⟨hin, hnext⟩ | ⟨rest, hin, hnext⟩ | ⟨m, rest, hin, -⟩ := step_cases c
  · exact ⟨c, d, hnext, step_of_idle (h.inbox ▸ hin), h, hlive⟩
  · exact ⟨_, _, hnext, step_of_reset (h.inbox ▸ hin), h.applyReset rest, fun hp => absurd rfl hp⟩
  · exact ⟨_, _, step_of_cmd_eq hin, step_of_cmd_eq (h.inbox ▸ hin), (h.accept m rest).commandState Config.E hlive _,
      commandState_live_has_key Config.E (c := accept m rest c) hlive _⟩

/-- Settles O38: a trailer is its two bit counts, each of which drops the byte count's high bits. -/
theorem trailersCollideModuloTheFieldWidth : Obligations.TrailersCollideModuloTheFieldWidth := by
  intro I a d a' d'
  rw [trailer_eq_iff, bitCount_eq_iff, bitCount_eq_iff]

/-- Settles O50: the three lines are `seal` of the empty message, which has no ciphertext. -/
theorem emptyMessageTagIgnoresTheNonce : Obligations.EmptyMessageTagIgnoresTheNonce := by
  intro I c k nonce t ht
  obtain ⟨e, hrun, -, -, hout⟩ := sealReturnsTheClosedForm I c k nonce [] [] t ht
  have hcipher : ciphertextOf Config.E k nonce [] = [] := by rw [ciphertextOf_eq, streamBytes_nil]
  rw [sealCall_empty] at hrun
  rw [hcipher, tagOf_empty, List.nil_append] at hout
  exact ⟨e, hrun, hout⟩

/-- Settles O9: the reset input's step, whose fields are its reset values (R221). -/
theorem resetInputClearsTheFlags : Obligations.ResetInputClearsTheFlags := fun _ c rest hin =>
  ⟨applyReset rest c, step_of_reset hin, applyReset_phase rest c, applyReset_keyValid rest c,
    applyReset_errSticky rest c, applyReset_cmd rest c, applyReset_inbox rest c, applyReset_trace rest c⟩

end Sys2Proof.Machine
end
